-- ==== Sys2Proof/Word.lean ====
section
/-! DEFINITION. The fixed-width words of the command interface (spec/30_encoding.md R61) and of a digit field
(spec/00_scope.md R17). A buffer word has the configured width `W` and is written `BitVec w` where it occurs. -/

namespace Sys2Proof

/-- A command word: exactly 32 bits (R61). -/
abbrev CommandWord := BitVec 32

/-- A digit field, one 4-bit slot of a buffer word; 0..15, whatever it holds (R17, R28). -/
abbrev Digit := BitVec 4

/-- A register number as a command names it: 4 bits, 0..15 (R61, R63). -/
abbrev RegNum := BitVec 4

/-- The `idx` field: a digit index, or a digit count for ALLOC; 16 bits, not scaled (R61, R63). -/
abbrev Index := BitVec 16

end Sys2Proof
end

