-- ==== Sys2Proof/Config.lean ====
section
/-! DEFINITION. The build-time parameters of PDA (spec/00_scope.md R8) and the free values of the model. -/

namespace Sys2Proof

/-- `acc_overflow` (R8, R138): what CVT does with a magnitude that does not fit. -/
inductive AccOverflow where
  | wrap    -- arithmetic modulo 2^ACCW
  | refuse  -- CVT has no meaning there
  deriving DecidableEq, Repr

/-- `alloc_fill` (R8, R33): what a freshly allocated buffer holds. -/
inductive AllocFill where
  | any   -- an arbitrary value per word, drawn once
  | zero  -- all words 0
  deriving DecidableEq, Repr

/-- `setd_overflow` (R8, R119): what ADD does with a final-carry sum above 15. -/
inductive SetdOverflow where
  | truncate  -- the low 4 bits are stored
  | refuse    -- ADD has no meaning there
  deriving DecidableEq, Repr

/-- The parameters of one PDA (R8). They are build-time parameters, not run-time state (R31). -/
structure Config where
  /-- `W`, width of a buffer word in bits. -/
  w : Nat
  /-- `NV`, number of value registers. -/
  nv : Nat
  /-- `MAXW`, words one value register can hold. -/
  maxw : Nat
  /-- `ACCW`, width of the accumulator in bits. -/
  accw : Nat
  accOverflow : AccOverflow
  allocFill : AllocFill
  setdOverflow : SetdOverflow
  deriving DecidableEq, Repr

/-- `DPW = W / 4`, digits per word (R8). -/
def digitsPerWord (w : Nat) : Nat := w / 4

def Config.dpw (c : Config) : Nat := digitsPerWord c.w

/-- `MAXD = MAXW * DPW - 1`, the largest digit count that can be allocated (R8, R9). -/
def Config.maxd (c : Config) : Nat := c.maxw * c.dpw - 1

/-- The constraints of R8 on the parameters. -/
def Config.wf (c : Config) : Bool :=
  decide (c.w % 4 = 0) && decide (4 ≤ c.w) && decide (1 ≤ c.nv) && decide (c.nv ≤ 16)
    && decide (1 ≤ c.maxw) && decide (c.maxw * c.dpw ≤ 65536) && decide (8 ≤ c.accw)

/-- The default of every parameter (R8). -/
def Config.default : Config where
  w := 32
  nv := 4
  maxw := 8
  accw := 32
  accOverflow := .wrap
  allocFill := .any
  setdOverflow := .truncate

/-- FREE VALUE (R13 `draw(N)`, log entry 5): the `n`-th arbitrary value of `width` bits. It has no body, so nothing can
be proved about which value it is. Used for the words of a buffer fresh from ALLOC under `alloc_fill = any` (R33, R100)
and for ACC after the reset input (R35). -/
opaque Config.draw (n width : Nat) : BitVec width

end Sys2Proof
end

