-- ==== Sys2Proof/Syntax.lean ====
section
/-! DEFINITION. The commands of PDA (spec/30_encoding.md R64), one constructor per row of spec/opcode_table.json. -/

namespace Sys2Proof

/-- A command with its operands in the assembler's order, destination first (R64, R69). -/
inductive Instr where
  /-- `ALLOC rd, dc` (R100) -/
  | alloc (rd : RegNum) (dc : Index)
  /-- `FREE rd` (R101) -/
  | free (rd : RegNum)
  /-- `COPY rd, rs` (R102) -/
  | copy (rd rs : RegNum)
  /-- `SETD rd, idx, val` (R86) -/
  | setd (rd : RegNum) (idx : Index) (val : Digit)
  /-- `GETD rd, idx` (R85) -/
  | getd (rd : RegNum) (idx : Index)
  /-- `SIGN rd` (R87) -/
  | sign (rd : RegNum)
  /-- `ADD rd, rs` (R115) -/
  | add (rd rs : RegNum)
  /-- `CVT rd` (R135) -/
  | cvt (rd : RegNum)
  deriving DecidableEq, Repr

/-- The register numbers a command names, `rd` before `rs` (R62, R173). -/
def Instr.registers : Instr → List RegNum
  | .alloc rd _ => [rd]
  | .free rd => [rd]
  | .copy rd rs => [rd, rs]
  | .setd rd _ _ => [rd]
  | .getd rd _ => [rd]
  | .sign rd => [rd]
  | .add rd rs => [rd, rs]
  | .cvt rd => [rd]

/-- The one register whose record a command may write (R25): `none` for the three that write no register. -/
def Instr.dest : Instr → Option RegNum
  | .alloc rd _ => some rd
  | .free rd => some rd
  | .copy rd _ => some rd
  | .setd rd _ _ => some rd
  | .getd _ _ => none
  | .sign _ => none
  | .add rd _ => some rd
  | .cvt _ => none

end Sys2Proof
end

