-- ==== Sys2Proof/WellFormed.lean ====
section
/-! DEFINITION. Which commands are legal on a PDA with `nv` value registers (spec/30_encoding.md R63, R65 (c)). The
other two grounds of R65 are about words, not commands, and stand in Decode.lean. -/

namespace Sys2Proof

/-- A register number is legal when it is below `NV` (R63). -/
def RegNum.legal (nv : Nat) (r : RegNum) : Bool := decide (r.toNat < nv)

/-- Every register number the command names is below `NV` (R65 (c)). Every `idx` and `val` is a legal field value;
what an index reaches is judged by the command (R63, R66). -/
def Instr.wf (nv : Nat) (i : Instr) : Bool := i.registers.all (RegNum.legal nv)

end Sys2Proof
end

