-- ==== Sys2Proof/Decode.lean ====
section
/-! DEFINITION. Decoding a command word and encoding a command (spec/30_encoding.md R61 to R66). Decoding is total and
needs only the word and `NV` (R66). -/

namespace Sys2Proof

/-- The five fields of a command word, at the same position in every format (R61). -/
structure Fields where
  op : BitVec 4
  rd : RegNum
  rs : RegNum
  val : Digit
  idx : Index
  deriving DecidableEq, Repr

/-- Cuts a word into its fields: op 31:28, rd 27:24, rs 23:20, val 19:16, idx 15:0 (R61). -/
def fieldsOf (word : CommandWord) : Fields where
  op := word.extractLsb' 28 4
  rd := word.extractLsb' 24 4
  rs := word.extractLsb' 20 4
  val := word.extractLsb' 16 4
  idx := word.extractLsb' 0 16

/-- Joins the fields into a word, `op` highest (R61, concatenation as in R11). -/
def wordOf (f : Fields) : CommandWord := f.op ++ f.rd ++ f.rs ++ f.val ++ f.idx

/-- Why a word is illegal (R65): (a) the operation code is reserved, (b) a field the format does not use is nonzero,
(c) a register field the format uses holds a number that is not below `NV`. -/
inductive Illegal where
  | reservedOp
  | unusedFieldNonzero
  | noSuchRegister
  deriving DecidableEq, Repr

/-- A command word of the right operation code is the command when its unused fields are zero (R62, R65 (b)) and its
register numbers exist (R65 (c)). -/
def legalCommand (nv : Nat) (unusedZero : Bool) (i : Instr) : Except Illegal Instr :=
  if unusedZero then
    if i.wf nv then .ok i else .error .noSuchRegister
  else .error .unusedFieldNonzero

/-- The decoder: the opcode map of R64 with the formats of R62. -/
def decode (nv : Nat) (word : CommandWord) : Except Illegal Instr :=
  let f := fieldsOf word
  match f.op.toNat with
  | 1 => legalCommand nv (f.rs == 0 && f.val == 0) (.alloc f.rd f.idx)
  | 2 => legalCommand nv (f.rs == 0 && f.val == 0 && f.idx == 0) (.free f.rd)
  | 3 => legalCommand nv (f.val == 0 && f.idx == 0) (.copy f.rd f.rs)
  | 4 => legalCommand nv (f.rs == 0) (.setd f.rd f.idx f.val)
  | 5 => legalCommand nv (f.rs == 0 && f.val == 0) (.getd f.rd f.idx)
  | 6 => legalCommand nv (f.rs == 0 && f.val == 0 && f.idx == 0) (.sign f.rd)
  | 7 => legalCommand nv (f.val == 0 && f.idx == 0) (.add f.rd f.rs)
  | 8 => legalCommand nv (f.rs == 0 && f.val == 0 && f.idx == 0) (.cvt f.rd)
  | _ => .error .reservedOp

/-- The fields of a command: its operation code (R64), its operands, zero where the format uses no field (R62). -/
def Instr.fields : Instr → Fields
  | .alloc rd dc => ⟨1, rd, 0, 0, dc⟩
  | .free rd => ⟨2, rd, 0, 0, 0⟩
  | .copy rd rs => ⟨3, rd, rs, 0, 0⟩
  | .setd rd idx val => ⟨4, rd, 0, val, idx⟩
  | .getd rd idx => ⟨5, rd, 0, 0, idx⟩
  | .sign rd => ⟨6, rd, 0, 0, 0⟩
  | .add rd rs => ⟨7, rd, rs, 0, 0⟩
  | .cvt rd => ⟨8, rd, 0, 0, 0⟩

/-- The encoder: the word of a command (R61, R64). -/
def encode (i : Instr) : CommandWord := wordOf i.fields

/-- The `match` column of the opcode map (R64). -/
def Instr.matchWord : Instr → CommandWord
  | .alloc _ _ => 0x10000000
  | .free _ => 0x20000000
  | .copy _ _ => 0x30000000
  | .setd _ _ _ => 0x40000000
  | .getd _ _ => 0x50000000
  | .sign _ => 0x60000000
  | .add _ _ => 0x70000000
  | .cvt _ => 0x80000000

/-- The `mask` column of the opcode map (R64): `op` and every unused field. -/
def Instr.maskWord : Instr → CommandWord
  | .alloc _ _ => 0xF0FF0000
  | .free _ => 0xF0FFFFFF
  | .copy _ _ => 0xF00FFFFF
  | .setd _ _ _ => 0xF0F00000
  | .getd _ _ => 0xF0FF0000
  | .sign _ => 0xF0FFFFFF
  | .add _ _ => 0xF00FFFFF
  | .cvt _ => 0xF0FFFFFF

/-- What the decoder of a PDA with the default `NV` reads from the word `w` of spec/opcode_table.json. Every command is
one 32-bit word (R61), so a number with more bits is no command. -/
def decodeTableWord (nbits w : Nat) : Option Instr :=
  if nbits ≤ 32 ∧ w < 2 ^ 32 then (decode Config.default.nv (BitVec.ofNat 32 w)).toOption else none

end Sys2Proof
end

