-- ==== Sys2Proof/Machine/State.lean ====
section
/-! DEFINITION. The state of PDA (spec/10_state.md), its responses (spec/60_exceptions.md R171), the reasons a step can
stop, and the state after reset (R35, R190). -/

namespace Sys2Proof.Machine

/-- The statuses of a response (R171); the 4-bit code the channel carries for each is `Status.code`. Codes 6 to 15 are never
produced and have no constructor. -/
inductive Status where
  | ok
  | errInvalidArg
  | errIllegal
  | errUnalloc
  | errRange
  | errCapacity
  deriving DecidableEq, Repr

/-- The response of one command: a status and `ACCW` bits of data (R60, R171); its bits are `Response.onChannel`. -/
structure Response (accw : Nat) where
  status : Status
  data : BitVec accw
  deriving DecidableEq, Repr

/-- The value a valid register holds: digit count, word count and the words of the buffer, word `k` at position `k`
(R20 to R23). The sign slot is the digit field of index `dc` (R26). `wc` is a count, not 16 bits: log entry 3. The words
are all of PDA's memory: log entry 14. -/
structure PackedDecimal (w : Nat) where
  dc : BitVec 16
  wc : Nat
  buf : List (BitVec w)
  deriving DecidableEq, Repr

/-- What the host does at PDA's pins (R60, R190, R200; log entry 6). -/
inductive HostAction where
  /-- presents a command word on the command channel -/
  | command (word : CommandWord)
  /-- takes the pending response from the response channel -/
  | takeResponse
  /-- asserts the reset input and releases it -/
  | reset
  deriving DecidableEq, Repr

/-- The state of PDA and of the channels to its host. `cfg` is the configuration the block was built with: a parameter,
which no step changes (R31; log entry 1). `host`, `delivered` and `draws` are the model's own (log entries 5, 6). -/
structure State where
  /-- the build-time parameters (R8) -/
  cfg : Config
  /-- the value registers (R20): `none` where `valid = 0` (R24; log entry 2) -/
  regs : Vector (Option (PackedDecimal cfg.w)) cfg.nv
  /-- the accumulator `ACC` (R29) -/
  acc : BitVec cfg.accw
  /-- the response pending on the response channel, `none` when the interface is idle (R35, R60) -/
  response : Option (Response cfg.accw)
  /-- the responses the host has taken, oldest first (R60) -/
  delivered : List (Response cfg.accw)
  /-- what the host does from here on, oldest first (R200) -/
  host : List HostAction
  /-- how many free values have been drawn so far; the next one is `Config.draw draws` -/
  draws : Nat
  deriving DecidableEq, Repr

/-- Why the machine stops with a fault. -/
inductive Fault where
  /-- Raised by GETD, SETD, SIGN, ADD and CVT on a register whose record does not hold the words that its `wc` and `dc`
  name, so that a word that does not exist (R12, R40) would be read. No state that meets `State.Inv` has such a record
  and every step keeps `State.Inv`. Safe (log entry 8). -/
  | noSuchWord
  deriving DecidableEq, Repr

/-- Why a step has no meaning. -/
inductive Refusal where
  /-- Raised by `exec` for an instruction the model gives no meaning yet. Safe. -/
  | notModelled (mnemonic : String)
  /-- Raised by CVT under `acc_overflow = refuse` when the magnitude does not fit (R138, U1). Safe (log
  entry 13). -/
  | accumulatorOverflow
  /-- Raised by ADD under `setd_overflow = refuse` when the final-carry sum is above 15 (R119, U2). Safe
  (log entry 13). -/
  | spareSlotOverflow
  deriving DecidableEq, Repr

/-- The machine right after reset (R35, R190) with the default parameters (R8): no register valid, the command interface
idle, no response pending. `acc` is unspecified by R35 and 0 here (log entry 4). -/
def State.reset : State where
  cfg := Config.default
  regs := Vector.replicate Config.default.nv none
  acc := 0
  response := none
  delivered := []
  host := []
  draws := 0

end Sys2Proof.Machine
end

