-- ==== Sys2Proof/Machine/Operands.lean ====
section
/-! DEFINITION. The digit_field_unpacker (spec/40_digit_field_unpacker.md R80 to R84): the one addressing mode of PDA,
register plus digit index (R92), and the access to the words of a buffer (spec/00_scope.md R12). -/

namespace Sys2Proof.Machine

/-- `bit_offset(i) = 4 * (i mod DPW)` (R80). -/
def bitOffset (dpw i : Nat) : Nat := 4 * (i % dpw)

/-- `word_index(i) = i div DPW` (R81). -/
def wordIndex (dpw i : Nat) : Nat := i / dpw

/-- The field at bit `off` of a word: mask and shift out (R82). -/
def getField {w : Nat} (word : BitVec w) (off : Nat) : Digit := ((word >>> off) &&& 0xF#w).setWidth 4

/-- Clears the field at bit `off` with the mask `0xF << off` and inserts `v` (R83). -/
def setField {w : Nat} (word : BitVec w) (v : Digit) (off : Nat) : BitVec w :=
  (word &&& ~~~(0xF#w <<< off)) ||| (v.setWidth w <<< off)

/-- `MemRead((r, k), W)` on the value register `r` holds (R12). The default 0 stands for a word that does not exist; no
command asks for one (log entry 8). -/
def PackedDecimal.memRead {w : Nat} (v : PackedDecimal w) (k : Nat) : BitVec w := v.buf.getD k 0

/-- `MemWrite((r, k), W, word)` on the value register `r` holds (R12). -/
def PackedDecimal.memWrite {w : Nat} (v : PackedDecimal w) (k : Nat) (word : BitVec w) : PackedDecimal w :=
  { v with buf := v.buf.set k word }

/-- Digit index `i` is addressable when it is below `wc * DPW` (R81). -/
def PackedDecimal.addressable {w : Nat} (v : PackedDecimal w) (i : Nat) : Bool :=
  decide (i < v.wc * digitsPerWord w)

/-- `get_digit(r, i)` (R82). -/
def PackedDecimal.getDigit {w : Nat} (v : PackedDecimal w) (i : Nat) : Digit :=
  getField (v.memRead (wordIndex (digitsPerWord w) i)) (bitOffset (digitsPerWord w) i)

/-- `set_digit(r, d, i)`, a read-modify-write of one word (R83). -/
def PackedDecimal.setDigit {w : Nat} (v : PackedDecimal w) (d : Digit) (i : Nat) : PackedDecimal w :=
  let k := wordIndex (digitsPerWord w) i
  v.memWrite k (setField (v.memRead k) d (bitOffset (digitsPerWord w) i))

end Sys2Proof.Machine
end

