-- ==== Sys2Proof/Machine/Flags.lean ====
section
/-! DEFINITION. The sign slot, PDA's only flag-like state (spec/10_state.md R26). There is no condition code, carry
flag, overflow flag or sticky bit (R27). -/

namespace Sys2Proof.Machine

/-- `sign(r) = get_digit(r, dc)`, the raw field (R84). -/
def PackedDecimal.sign {w : Nat} (v : PackedDecimal w) : Digit := v.getDigit v.dc.toNat

/-- "The sign slot is set", read as nonzero (R84, R137; log entry 9). -/
def PackedDecimal.signSet {w : Nat} (v : PackedDecimal w) : Bool := decide (v.sign ≠ 0)

end Sys2Proof.Machine
end

