-- ==== Sys2Proof/Machine/Ops.lean ====
section
/-! DEFINITION. The named operations every command is built from: reading a value register, the status codes, answering, raising an error
(spec/00_scope.md R12, R13; spec/60_exceptions.md R171, R173, R174), the buffers' canonical form (spec/10_state.md R23, R28),
and what the host does to the channels (spec/30_encoding.md R60, spec/70_reset_and_hazards.md R190). -/

namespace Sys2Proof.Machine

/-- The outcome of a command or a step. -/
abbrev Result := Host.Outcome State Fault Refusal

/-- `V[r]`: `none` where the machine has no register of that number, `some none` where it holds no value. -/
def State.reg? (s : State) (r : RegNum) : Option (Option (PackedDecimal s.cfg.w)) := s.regs[r.toNat]?

/-- `V[r] <- v`; `none` clears `valid` (R12, R24). -/
abbrev State.setReg (s : State) (r : RegNum) (v : Option (PackedDecimal s.cfg.w)) : State :=
  { s with regs := s.regs.setIfInBounds r.toNat v }

/-- `ACC <- a` (R12, R29). -/
abbrev State.setAcc (s : State) (a : BitVec s.cfg.accw) : State := { s with acc := a }

/-- The 4-bit code of a status (R171); the codes 6 to 15 are never produced. -/
def Status.code : Status → BitVec 4
  | .ok => 0
  | .errInvalidArg => 1
  | .errIllegal => 2
  | .errUnalloc => 3
  | .errRange => 4
  | .errCapacity => 5

/-- What the response channel carries for a response: 4 bits of status and `ACCW` bits of data (R60, R171). -/
def Response.onChannel {accw : Nat} (a : Response accw) : BitVec 4 × BitVec accw := (a.status.code, a.data)

/-- Puts the command's response on the response channel (R60). -/
abbrev State.answer (s : State) (status : Status) (data : BitVec s.cfg.accw) : State :=
  { s with response := some ⟨status, data⟩ }

/-- `respond(OK, data)` (R13). -/
def State.respond (s : State) (data : BitVec s.cfg.accw) : Result := .next (s.answer .ok data)

/-- `raise e`: what taking an exception is on PDA. The command ends with no architectural state changed, the response
carries the status and data 0 (R13, R174). Nothing is saved, so there is no return (R176). -/
def State.raise (s : State) (e : Status) : Result := .next (s.answer e 0)

/-- The check that comes first (R173): every register number used is below `NV`, else ERR_ILLEGAL (R65 (c)). The decoder
refuses such a word already. -/
def State.ifLegal (s : State) (rs : List RegNum) (k : Result) : Result :=
  if rs.all (RegNum.legal s.cfg.nv) then k else s.raise .errIllegal

/-- Goes on with the value register `r` holds, ERR_UNALLOC where it holds none (R172). -/
def State.withValue (s : State) (r : RegNum) (k : PackedDecimal s.cfg.w → Result) : Result :=
  match s.reg? r with
  | none => s.raise .errIllegal
  | some none => s.raise .errUnalloc
  | some (some v) => k v

/-- The record holds the words its `wc` and `dc` name: `wc` words, the sign slot among them (R21, R23). -/
def PackedDecimal.coherent {w : Nat} (v : PackedDecimal w) : Bool :=
  decide (v.buf.length = v.wc) && v.addressable v.dc.toNat

/-- As `withValue`, for the commands that read or write digit fields. -/
def State.withDigits (s : State) (r : RegNum) (k : PackedDecimal s.cfg.w → Result) : Result :=
  s.withValue r fun v => if v.coherent then k v else .fault .noSuchWord

/-- The legal contents of a valid register (R20, R23, R28, R31): `1 <= dc <= MAXD`, `wc = dc div DPW + 1`, and exactly
`wc` words in the buffer. Digit fields and the sign slot may hold anything (R28). -/
def PackedDecimal.wf (c : Config) (v : PackedDecimal c.w) : Bool :=
  decide (1 ≤ v.dc.toNat) && decide (v.dc.toNat ≤ c.maxd) && decide (v.wc = v.dc.toNat / c.dpw + 1)
    && decide (v.buf.length = v.wc)

/-- The canonical form of PDA's memory: every valid register's record is legal, so that exactly the words that exist are
listed (R21, R40). -/
def Memory.wf (s : State) : Bool := s.regs.toList.all fun v => v.all (PackedDecimal.wf s.cfg)

/-- The `wc` words of a fresh buffer: under `alloc_fill = any` a fresh free value each, under `zero` 0 (R33, R100). -/
def fillWords (c : Config) (draws wc : Nat) : List (BitVec c.w) :=
  match c.allocFill with
  | .any => (List.range wc).map fun k => Config.draw (draws + k) c.w
  | .zero => List.replicate wc 0

/-- Counts `n` free values as drawn. -/
abbrev State.drawn (s : State) (n : Nat) : State := { s with draws := s.draws + n }

/-- The host's next action is done; `rest` remains. -/
abbrev State.hostDone (s : State) (rest : List HostAction) : State := { s with host := rest }

/-- The host takes the pending response, if there is one (R60, R200). -/
abbrev State.deliver (s : State) : State :=
  { s with response := none, delivered := s.delivered ++ s.response.toList }

/-- The reset input (R190): every register invalid, the interface idle, a response not yet delivered lost; ACC is
unspecified (R35), a free value here (log entry 7). -/
abbrev State.resetInput (s : State) : State :=
  { s with
    regs := Vector.replicate s.cfg.nv none
    acc := Config.draw s.draws s.cfg.accw
    response := none
    draws := s.draws + 1 }

end Sys2Proof.Machine
end

