-- ==== Sys2Proof/Machine/Accumulator.lean ====
section
/-! DEFINITION. The bcd_digit_accumulator: CVT (spec/43_bcd_digit_accumulator.md). -/

namespace Sys2Proof.Machine

/-- The loop of R135: `acc = 10 * acc + digit` modulo `2^ACCW` for the digits `i-1` down to 0 (R136). -/
def accumulate {w accw : Nat} (v : PackedDecimal w) : Nat → BitVec accw → BitVec accw
  | 0, acc => acc
  | i + 1, acc => accumulate v i (10 * acc + (v.getDigit i).setWidth accw)

/-- The sign step: two's-complement negation where the sign slot is set (R137). -/
def applySign {w accw : Nat} (v : PackedDecimal w) (acc : BitVec accw) : BitVec accw :=
  if v.signSet then -acc else acc

/-- `val_k`, the sum of `digit(i) * 10^i` over `i < k` in the integers (R129). -/
def PackedDecimal.valUpTo {w : Nat} (v : PackedDecimal w) : Nat → Nat
  | 0 => 0
  | k + 1 => v.valUpTo k + (v.getDigit k).toNat * 10 ^ k

/-- `val(r) = val_dc(r)`, the magnitude (R129, R136). -/
def PackedDecimal.magnitude {w : Nat} (v : PackedDecimal w) : Nat := v.valUpTo v.dc.toNat

/-- The magnitude does not fit a signed `ACCW`-bit integer of the value's sign (R138, U1). -/
def PackedDecimal.overflows {w : Nat} (accw : Nat) (v : PackedDecimal w) : Bool :=
  if v.signSet then decide (2 ^ (accw - 1) < v.magnitude) else decide (2 ^ (accw - 1) - 1 < v.magnitude)

/-- CVT rd (R135): ACC and the response data are the signed value modulo `2^ACCW`; under `acc_overflow = refuse` the
command has no meaning on a magnitude that does not fit (R138). -/
def execCvt (rd : RegNum) (s : State) : Result :=
  s.ifLegal [rd] <| s.withDigits rd fun v =>
    if s.cfg.accOverflow = .refuse ∧ v.overflows s.cfg.accw then .refused .accumulatorOverflow
    else
      let acc := applySign v (accumulate v v.dc.toNat 0)
      (s.setAcc acc).respond acc

end Sys2Proof.Machine
end

