-- ==== Sys2Proof/Machine/Adder.lean ====
section
/-! DEFINITION. The multi-word bcd_ripple_adder: ADD (spec/42_bcd_ripple_adder.md). Its quirks are normative: the carry
is added after the reduction mod 10, the carry out ignores the carry in, nothing grows, signs are ignored. -/

namespace Sys2Proof.Machine

/-- `d`, the sum of two digit fields, 0..30 (R117, R118). -/
def digitSum (a b : Digit) : Nat := a.toNat + b.toNat

/-- The stored digit, `(d mod 10) + carry_in`; always fits the field (R117, R118). -/
def sumDigit (a b : Digit) (carry : Nat) : Digit := BitVec.ofNat 4 (digitSum a b % 10 + carry)

/-- `carry_out = d div 10`, from `d` alone (R117). -/
def carryOut (a b : Digit) : Nat := digitSum a b / 10

/-- One turn of the loop of R115 on self and the carry latch: both fields are read before the one is written.
`other = none` says that other is self (R124). -/
def addStep {w : Nat} (other : Option (PackedDecimal w)) (p : PackedDecimal w × Nat) (i : Nat) : PackedDecimal w × Nat :=
  let a := p.1.getDigit i
  let b := (other.getD p.1).getDigit i
  (p.1.setDigit (sumDigit a b p.2) i, carryOut a b)

/-- The loop of R115 over the digits `0 .. n-1`, rising, the carry latch 0 at its start. -/
def addLoop {w : Nat} (other : Option (PackedDecimal w)) (n : Nat) (self : PackedDecimal w) : PackedDecimal w × Nat :=
  (List.range n).foldl (addStep other) (self, 0)

/-- The final carry into the spare slot `n`, or dropped (R119, R120). -/
def addFinalCarry {w : Nat} (mode : SetdOverflow) (n : Nat) (p : PackedDecimal w × Nat) :
    Except Refusal (PackedDecimal w) :=
  if p.2 ≠ 0 ∧ n < p.1.dc.toNat then
    let sum := (p.1.getDigit n).toNat + p.2
    if 16 ≤ sum ∧ mode = .refuse then .error .spareSlotOverflow
    else .ok (p.1.setDigit (BitVec.ofNat 4 (sum % 16)) n)
  else .ok p.1

/-- `self += other` on the values (R115, R116). -/
def addValue {w : Nat} (mode : SetdOverflow) (self : PackedDecimal w) (other : Option (PackedDecimal w)) :
    Except Refusal (PackedDecimal w) :=
  let n := min self.dc.toNat (other.getD self).dc.toNat
  addFinalCarry mode n (addLoop other n self)

/-- ADD rd, rs (R115); `rd` is tested before `rs` (R173); `rd = rs` is legal (R124). -/
def execAdd (rd rs : RegNum) (s : State) : Result :=
  s.ifLegal [rd, rs] <| s.withDigits rd fun a => s.withDigits rs fun b =>
    match addValue s.cfg.setdOverflow a (if rd = rs then none else some b) with
    | .ok v => (s.setReg rd (some v)).respond 0
    | .error e => .refused e

end Sys2Proof.Machine
end

