-- ==== Sys2Proof/Machine/Store.lean ====
section
/-! DEFINITION. The operand store: ALLOC, FREE, COPY (spec/41_value_store.md). -/

namespace Sys2Proof.Machine

/-- ALLOC rd, dc (R100): a fresh value of `dc` digits; a value `rd` held is replaced. -/
def execAlloc (rd : RegNum) (dc : Index) (s : State) : Result :=
  s.ifLegal [rd] <|
    if dc = 0 then s.raise .errInvalidArg
    else if s.cfg.maxd < dc.toNat then s.raise .errCapacity
    else
      let wc := dc.toNat / s.cfg.dpw + 1
      ((s.setReg rd (some ⟨dc, wc, fillWords s.cfg s.draws wc⟩)).drawn wc).respond 0

/-- FREE rd (R101): `valid` is cleared; ACC is kept. -/
def execFree (rd : RegNum) (s : State) : Result :=
  s.ifLegal [rd] <| s.withValue rd fun _ => (s.setReg rd none).respond 0

/-- COPY rd, rs (R102): the source's validity is tested first; `rd = rs` is a no-op; else `dc`, `wc` and every word of
the buffer are copied bit for bit. -/
def execCopy (rd rs : RegNum) (s : State) : Result :=
  s.ifLegal [rd, rs] <| s.withValue rs fun v =>
    if rd = rs then s.respond 0 else (s.setReg rd (some v)).respond 0

end Sys2Proof.Machine
end

