-- ==== Sys2Proof/Machine/Unpacker.lean ====
section
/-! DEFINITION. The commands over one digit field: SETD, GETD, SIGN (spec/40_digit_field_unpacker.md R85 to R87). -/

namespace Sys2Proof.Machine

/-- SETD rd, idx, val (R86): no check of `val` (R88). -/
def execSetd (rd : RegNum) (idx : Index) (val : Digit) (s : State) : Result :=
  s.ifLegal [rd] <| s.withDigits rd fun v =>
    if v.addressable idx.toNat then (s.setReg rd (some (v.setDigit val idx.toNat))).respond 0
    else s.raise .errRange

/-- GETD rd, idx (R85). -/
def execGetd (rd : RegNum) (idx : Index) (s : State) : Result :=
  s.ifLegal [rd] <| s.withDigits rd fun v =>
    if v.addressable idx.toNat then s.respond ((v.getDigit idx.toNat).setWidth s.cfg.accw)
    else s.raise .errRange

/-- SIGN rd (R87): the raw sign slot. -/
def execSign (rd : RegNum) (s : State) : Result :=
  s.ifLegal [rd] <| s.withDigits rd fun v => s.respond (v.sign.setWidth s.cfg.accw)

end Sys2Proof.Machine
end

