-- ==== Sys2Proof/Machine/Dispatch.lean ====
section
/-! DEFINITION. One arm per command, each a direct call of its meaning. -/

namespace Sys2Proof.Machine

def exec (i : Instr) (s : State) : Host.Outcome State Fault Refusal :=
  match i with
  | .alloc rd dc => Sys2Proof.Machine.execAlloc rd dc s
  | .free rd => Sys2Proof.Machine.execFree rd s
  | .copy rd rs => Sys2Proof.Machine.execCopy rd rs s
  | .setd rd idx val => Sys2Proof.Machine.execSetd rd idx val s
  | .getd rd idx => Sys2Proof.Machine.execGetd rd idx s
  | .sign rd => Sys2Proof.Machine.execSign rd s
  | .add rd rs => Sys2Proof.Machine.execAdd rd rs s
  | .cvt rd => Sys2Proof.Machine.execCvt rd s

end Sys2Proof.Machine
end

