-- ==== Sys2Proof/Machine/Step.lean ====
section
/-! DEFINITION. One step: the host's next action, if the channels' handshake allows it (spec/30_encoding.md R60,
spec/70_reset_and_hazards.md R190, R193, R200). There is no program counter (spec/10_state.md R30). -/

namespace Sys2Proof.Machine

/-- A command word accepted: decoded from the word and `NV` alone (R66); an illegal one is answered ERR_ILLEGAL (R65). -/
def State.runWord (s : State) (word : CommandWord) : Host.Outcome State Fault Refusal :=
  match decode s.cfg.nv word with
  | .ok i => exec i s
  | .error _ => s.raise .errIllegal

/-- One step. With nothing presented PDA is idle and nothing changes (R180). Reset acts at once (R190): a response not yet
taken is lost, which is also how a command in progress ends that reset abandons. A command is accepted only when no
response is pending, and runs to its response in this step (R193, R200; log entry 11). A take waits for a response. -/
def step (s : State) : Host.Outcome State Fault Refusal :=
  match s.host with
  | [] => .next s
  | .reset :: rest => .next (s.hostDone rest).resetInput
  | .command word :: rest => if s.response.isNone then (s.hostDone rest).runWord word else .next s
  | .takeResponse :: rest => if s.response.isSome then .next (s.hostDone rest).deliver else .next s

/-- `s` with the command word `w` as the host's next action and the response channel free, which is what PDA needs to
accept it in the next step (log entry 6). Every command is one word of 32 bits (R61). -/
def State.withFetchWord (s : State) (_nbits w : Nat) : State :=
  { s with host := .command (BitVec.ofNat 32 w) :: s.host, response := none }

end Sys2Proof.Machine
end

