-- ==== Sys2Proof/Machine/Assembler.lean ====
section
/-! DEFINITION. The assembler syntax (spec/30_encoding.md R69): writing a command as text and reading a line of text.
What the reader accepts beyond R69: log entry 12. -/

namespace Sys2Proof.Machine

/-- `V<r>` (R69). -/
def registerText (r : RegNum) : List Char := 'V' :: Nat.toDigits 10 r.toNat

/-- The mnemonic (R64). -/
def mnemonicText : Instr → List Char
  | .alloc _ _ => ['A', 'L', 'L', 'O', 'C']
  | .free _ => ['F', 'R', 'E', 'E']
  | .copy _ _ => ['C', 'O', 'P', 'Y']
  | .setd _ _ _ => ['S', 'E', 'T', 'D']
  | .getd _ _ => ['G', 'E', 'T', 'D']
  | .sign _ => ['S', 'I', 'G', 'N']
  | .add _ _ => ['A', 'D', 'D']
  | .cvt _ => ['C', 'V', 'T']

/-- The operands as text, destination first (R69). -/
def operandTexts : Instr → List (List Char)
  | .alloc rd dc => [registerText rd, Nat.toDigits 10 dc.toNat]
  | .free rd => [registerText rd]
  | .copy rd rs => [registerText rd, registerText rs]
  | .setd rd idx val => [registerText rd, Nat.toDigits 10 idx.toNat, Nat.toDigits 10 val.toNat]
  | .getd rd idx => [registerText rd, Nat.toDigits 10 idx.toNat]
  | .sign rd => [registerText rd]
  | .add rd rs => [registerText rd, registerText rs]
  | .cvt rd => [registerText rd]

/-- `MNEMONIC operand, operand, ...` (R69). -/
def assemblyText (i : Instr) : List Char := mnemonicText i ++ ' ' :: [',', ' '].intercalate (operandTexts i)

/-- The value of a digit character in base 16. -/
def hexValue (c : Char) : Option Nat :=
  if 48 ≤ c.toNat ∧ c.toNat ≤ 57 then some (c.toNat - 48)
  else if 65 ≤ c.toNat ∧ c.toNat ≤ 70 then some (c.toNat - 55)
  else if 97 ≤ c.toNat ∧ c.toNat ≤ 102 then some (c.toNat - 87)
  else none

/-- A number in the given base, most significant digit first; at least one digit. -/
def readDigits (base : Nat) (cs : List Char) : Option Nat :=
  if cs.isEmpty then none
  else cs.foldl (fun acc c => acc.bind fun n => (hexValue c).bind fun d =>
    if d < base then some (base * n + d) else none) (some 0)

/-- A number in decimal or `0x` hexadecimal (R69). -/
def readUnsigned : List Char → Option Nat
  | '0' :: 'x' :: rest => readDigits 16 rest
  | cs => readDigits 10 cs

/-- A number that is at most `most`, the largest its field holds. -/
def readNumber (most : Nat) (cs : List Char) : Option Nat :=
  (readUnsigned cs).bind fun k => if k ≤ most then some k else none

/-- A register `V0` .. `V15` (R69). -/
def readRegister : List Char → Option RegNum
  | 'V' :: rest => (readDigits 10 rest).bind fun k => if k ≤ 15 then some (BitVec.ofNat 4 k) else none
  | _ => none

def trimSpaces (cs : List Char) : List Char :=
  ((cs.dropWhile (· == ' ')).reverse.dropWhile (· == ' ')).reverse

/-- Cuts at every comma. -/
def splitCommas : List Char → List (List Char)
  | [] => [[]]
  | ',' :: rest => [] :: splitCommas rest
  | c :: rest =>
    match splitCommas rest with
    | [] => [[c]]
    | piece :: pieces => (c :: piece) :: pieces

/-- The command of a mnemonic and its operand texts. -/
def readCommand (mnemonic : List Char) (operands : List (List Char)) : Option Instr :=
  match mnemonic, operands with
  | ['A', 'L', 'L', 'O', 'C'], [a, b] => do return .alloc (← readRegister a) (BitVec.ofNat 16 (← readNumber 65535 b))
  | ['F', 'R', 'E', 'E'], [a] => do return .free (← readRegister a)
  | ['C', 'O', 'P', 'Y'], [a, b] => do return .copy (← readRegister a) (← readRegister b)
  | ['S', 'E', 'T', 'D'], [a, b, c] => do
    return .setd (← readRegister a) (BitVec.ofNat 16 (← readNumber 65535 b)) (BitVec.ofNat 4 (← readNumber 15 c))
  | ['G', 'E', 'T', 'D'], [a, b] => do return .getd (← readRegister a) (BitVec.ofNat 16 (← readNumber 65535 b))
  | ['S', 'I', 'G', 'N'], [a] => do return .sign (← readRegister a)
  | ['A', 'D', 'D'], [a, b] => do return .add (← readRegister a) (← readRegister b)
  | ['C', 'V', 'T'], [a] => do return .cvt (← readRegister a)
  | _, _ => none

/-- One line: `none` where it is no command; `some none` where it is empty but for a `;` comment (R69). -/
def readLine (line : List Char) : Option (Option Instr) :=
  let code := trimSpaces (line.takeWhile (· ≠ ';'))
  if code.isEmpty then some none
  else
    let mnemonic := code.takeWhile (· ≠ ' ')
    let operands := (splitCommas (code.dropWhile (· ≠ ' '))).map trimSpaces
    (readCommand mnemonic operands).map some

end Sys2Proof.Machine
end

