-- ==== Sys2Proof/Machine/HostProcedures.lean ====
section
/-! DEFINITION. The host procedures (spec/44_host_procedures.md): sequences of commands with host arithmetic and
character handling around them. They are not PDA datapath; `step` does not use them. -/

namespace Sys2Proof.Machine

/-- Why a host procedure issues no command. -/
inductive HostFailure where
  /-- the one error condition of the source, raised by NEWS (R153, R179) -/
  | invalidArgument
  /-- NEWI of an integer outside its domain (R151, U11) -/
  | outsideDomain
  /-- more than 65535 digits: no ALLOC word expresses the count (R61; log entry 10) -/
  | countNotExpressible
  deriving DecidableEq, Repr

/-- The least `k >= 1` with `m < 10^k`, found with at most `fuel` divisions. -/
def countDigitsFuel : Nat → Nat → Nat
  | 0, _ => 1
  | fuel + 1, m => if m < 10 then 1 else countDigitsFuel fuel (m / 10) + 1

/-- `count_decimal_digits(m)` (R150). -/
def countDecimalDigits (m : Nat) : Nat := countDigitsFuel m m

/-- SETS rd, s: SETD of the sign slot, `dc` as the host knows it (R155, R196). -/
def sets (rd : RegNum) (dc : Nat) (negative : Bool) : Instr :=
  .setd rd (BitVec.ofNat 16 dc) (if negative then 1 else 0)

/-- One SETD per digit, the first at index `i`, rising. -/
def setDigits (rd : RegNum) : Nat → List Digit → List Instr
  | _, [] => []
  | i, d :: ds => .setd rd (BitVec.ofNat 16 i) d :: setDigits rd (i + 1) ds

/-- ALLOC, then one SETD per digit, then SETS (R151, R152, R192); `digits` least significant first. -/
def construct (rd : RegNum) (digits : List Digit) (negative : Bool) : Except HostFailure (List Instr) :=
  if digits.length < 2 ^ 16 then
    .ok (.alloc rd (BitVec.ofNat 16 digits.length) :: (setDigits rd 0 digits ++ [sets rd digits.length negative]))
  else .error .countNotExpressible

/-- The first `n` digits of `m`, least significant first, by repeated `mod 10` and `div 10` (R151). -/
def lowDigits : Nat → Nat → List Digit
  | 0, _ => []
  | n + 1, m => BitVec.ofNat 4 (m % 10) :: lowDigits n (m / 10)

/-- NEWI rd, value, for a host whose native integers have `accw` bits (R151). -/
def newi (accw : Nat) (rd : RegNum) (value : Int) : Except HostFailure (List Instr) :=
  if -(2 ^ (accw - 1)) < value ∧ value < 2 ^ (accw - 1) then
    construct rd (lowDigits (countDecimalDigits value.natAbs) value.natAbs) (decide (value < 0))
  else .error .outsideDomain

/-- The decimal-digit predicate: one of the ten characters '0' to '9' (R152). -/
def isDecimalDigit (c : Char) : Bool := decide (48 ≤ c.toNat) && decide (c.toNat ≤ 57)

/-- The digit a decimal-digit character denotes (R152, GK1). -/
def valueOf (c : Char) : Digit := BitVec.ofNat 4 (c.toNat - 48)

/-- NEWS rd, string (R152, R153, C1); `none` is the null string. -/
def news (rd : RegNum) (string : Option (List Char)) : Except HostFailure (List Instr) :=
  match string with
  | none => .error .invalidArgument
  | some [] => .error .invalidArgument
  | some (c :: cs) =>
    let negative := decide (c = '-')
    let body := if negative then cs else c :: cs
    if body.isEmpty then .error .invalidArgument
    else if body.all isDecimalDigit then construct rd (body.reverse.map valueOf) negative
    else .error .invalidArgument

/-- How a sequence of commands ends for the host: every command answered OK, the data of the responses in order; or the
first error status; or a stop of the model. -/
inductive Performed where
  | done (s : State) (data : List Nat)
  | error (e : Status) (s : State)
  | fault (f : Fault)
  | refused (r : Refusal)
  deriving DecidableEq, Repr

/-- Issues the commands in order and takes each response; stops at the first that is not OK (R200; log entry
15). -/
def perform : List Instr → State → Performed
  | [], s => .done s []
  | i :: rest, s =>
    match exec i s with
    | .fault f => .fault f
    | .refused r => .refused r
    | .next t =>
      match t.response with
      | none => perform rest t   -- no command ends without a response (R60)
      | some a =>
        if a.status = .ok then
          match perform rest t.deliver with
          | .done u data => .done u (a.data.toNat :: data)
          | other => other
        else .error a.status t.deliver

/-- The commands of RENDER: SIGN, then GETD of `dc-1` down to 0 (R154). -/
def renderCommands (rd : RegNum) (dc : Nat) : List Instr :=
  .sign rd :: (List.range dc).reverse.map fun i => .getd rd (BitVec.ofNat 16 i)

/-- The decimal character of a digit 0..9; no character for 10..15 (R154, U4). -/
def charOf (g : Nat) : Option Char := if g ≤ 9 then some (Char.ofNat (48 + g)) else none

/-- The text of RENDER from the response data, the sign's first (R154). -/
def renderText : List Nat → Option (List Char)
  | [] => none
  | sign :: digits => (digits.mapM charOf).map fun text => if sign ≠ 0 then '-' :: text else text

/-- RENDER rd for a host that knows the digit count `dc` (R154, R196). DESIGN CHOICE (log entry 15): R154 does not say what
RENDER yields when SIGN or GETD answers an error; the host stops there and has no text. -/
def render (rd : RegNum) (dc : Nat) (s : State) : Option (List Char) :=
  match perform (renderCommands rd dc) s with
  | .done _ data => renderText data
  | _ => none

end Sys2Proof.Machine
end

