-- ==== Sys2Proof/Machine/Observe.lean ====
section
/-! DEFINITION. What can be read of a state, as numbers that do not mention the configured widths, so that two states
can be compared field by field. The digit field is cut out of the word's number by the slice of spec/20_memory.md R41
and R42, not by the unpacker's shift and mask. -/

namespace Sys2Proof.Machine

/-- The value register `r` holds, if it holds one. -/
def State.value? (s : State) (r : RegNum) : Option (PackedDecimal s.cfg.w) := (s.reg? r).join

/-- `V[r].valid` (R20, R24). -/
def State.valid (s : State) (r : RegNum) : Bool := (s.value? r).isSome

/-- `V[r].dc` (R22). -/
def State.digitCount? (s : State) (r : RegNum) : Option Nat := (s.value? r).map fun v => v.dc.toNat

/-- `V[r].wc` (R23). -/
def State.wordCount? (s : State) (r : RegNum) : Option Nat := (s.value? r).map fun v => v.wc

/-- The word at address `(r, k)` as an unsigned number (R12, R40, R45); `none` where no such word exists. -/
def State.wordAt (s : State) (r : RegNum) (k : Nat) : Option Nat :=
  (s.value? r).bind fun v => if k < v.wc then (v.buf[k]?).map BitVec.toNat else none

/-- Digit `i` of register `r`: bits `4*(i mod DPW)+3 : 4*(i mod DPW)` of word `i div DPW` (R41); `none` where the index is
not addressable. -/
def State.digitAt (s : State) (r : RegNum) (i : Nat) : Option Digit :=
  (s.wordAt r (i / s.cfg.dpw)).map fun word => BitVec.ofNat 4 (word / 2 ^ (4 * (i % s.cfg.dpw)))

/-- The sign slot of register `r`, the digit of index `dc` (R26). -/
def State.signAt (s : State) (r : RegNum) : Option Digit := (s.digitCount? r).bind (s.digitAt r)

/-- The number digit `i` of register `r` holds, 0 where there is none. -/
def State.digitNat (s : State) (r : RegNum) (i : Nat) : Nat := ((s.digitAt r i).map BitVec.toNat).getD 0

/-- `val_k(r)` (R129): the raw fields below `k`, weighed by powers of ten. -/
def State.valOf (s : State) (r : RegNum) : Nat → Nat
  | 0 => 0
  | k + 1 => s.valOf r k + s.digitNat r k * 10 ^ k

/-- The pending response as a status and a number. -/
def State.answer? (s : State) : Option (Status × Nat) := s.response.map fun a => (a.status, a.data.toNat)

/-- Register `r` is the same in both states: valid bit, counts and every word. -/
def State.SameRegister (s t : State) (r : RegNum) : Prop :=
  t.valid r = s.valid r ∧ t.digitCount? r = s.digitCount? r ∧ t.wordCount? r = s.wordCount? r ∧
    ∀ k, t.wordAt r k = s.wordAt r k

/-- Nothing that is not the operand store, ACC or the response differs: configuration, host, responses taken. -/
def State.SameSurroundings (s t : State) : Prop :=
  t.cfg = s.cfg ∧ t.host = s.host ∧
    t.delivered.map (fun a => (a.status, a.data.toNat)) = s.delivered.map (fun a => (a.status, a.data.toNat))

end Sys2Proof.Machine
end

