-- ==== Sys2Proof/Safety.lean ====
section
/-! DEFINITION. The invariant of PDA's states and what counts as a safe step, in the terms the statements use. -/

namespace Sys2Proof.Machine

/-- A response is legal when data is 0 on every error status (R67, R171). -/
def Response.legal {accw : Nat} (a : Response accw) : Bool := decide (a.status = .ok) || decide (a.data = 0)

/-- The states a run can be in: admissible parameters (R8), every valid register's record legal (R20, R23, R28), every
response legal (R67). It says nothing of the digits: ADD and SETD store 10..15 (R28, R127). -/
def State.Inv (s : State) : Prop :=
  s.cfg.wf = true ∧ Memory.wf s = true ∧ (∀ a ∈ s.response, a.legal = true) ∧ ∀ a ∈ s.delivered, a.legal = true

/-- A safe step goes on: no fault, no refusal. -/
def SafeStep (s : State) : Prop := ∃ t, step s = .next t

end Sys2Proof.Machine
end

