-- ==== Sys2Proof/Certificates/Slice0/Obligations.lean ====
section
/-! DEFINITION. The statements for the provers. Each docstring names the rule of spec/ it formalises. A statement about a
command covers every configuration that meets R8 (`State.Inv`), not only the defaults. -/

open Sys2Proof Sys2Proof.Machine

namespace Sys2Proof.Spec

/-- The slice `[lo+width-1 : lo]` of a command word as a number (R11). -/
def slice (word : CommandWord) (lo width : Nat) : Nat := word.toNat / 2 ^ lo % 2 ^ width

/-- A word is illegal (R65): (a) its operation code is reserved, (b) a field its format does not use is nonzero, or (c) a
register field its format uses holds a number that is not below `NV`. Formats: R62, R64. -/
def IllegalWord (nv : Nat) (word : CommandWord) : Prop :=
  let op := slice word 28 4
  let rd := slice word 24 4
  let rs := slice word 20 4
  let val := slice word 16 4
  let idx := slice word 0 16
  (op = 0 ∨ 9 ≤ op) ∨
  ((op = 2 ∨ op = 6 ∨ op = 8) ∧ (rs ≠ 0 ∨ val ≠ 0 ∨ idx ≠ 0) ∨
    (op = 3 ∨ op = 7) ∧ (val ≠ 0 ∨ idx ≠ 0) ∨
    (op = 1 ∨ op = 5) ∧ (rs ≠ 0 ∨ val ≠ 0) ∨
    op = 4 ∧ rs ≠ 0) ∨
  (nv ≤ rd ∨ (op = 3 ∨ op = 7) ∧ nv ≤ rs)

/-- The table of R172 for a legal command, its columns in the order of R173. -/
def commandError (s : State) : Instr → Option Status
  | .alloc _ dc =>
    if dc.toNat = 0 then some .errInvalidArg else if s.cfg.maxd < dc.toNat then some .errCapacity else none
  | .free rd => if s.valid rd then none else some .errUnalloc
  | .copy _ rs => if s.valid rs then none else some .errUnalloc
  | .setd rd idx _ =>
    if s.valid rd then
      if (s.wordCount? rd).getD 0 * s.cfg.dpw ≤ idx.toNat then some .errRange else none
    else some .errUnalloc
  | .getd rd idx =>
    if s.valid rd then
      if (s.wordCount? rd).getD 0 * s.cfg.dpw ≤ idx.toNat then some .errRange else none
    else some .errUnalloc
  | .sign rd => if s.valid rd then none else some .errUnalloc
  | .add rd rs => if s.valid rd ∧ s.valid rs then none else some .errUnalloc
  | .cvt rd => if s.valid rd then none else some .errUnalloc

/-- Every register but `rd` is the same, and so are ACC, the configuration, the host's actions and the responses taken. -/
def OthersKept (s t : State) (rd : RegNum) : Prop :=
  (∀ r, r ≠ rd → s.SameRegister t r) ∧ t.acc.toNat = s.acc.toNat ∧ s.SameSurroundings t

/-- Register `r`'s valid bit and counts are the same. -/
def CountsKept (s t : State) (r : RegNum) : Prop :=
  t.valid r = s.valid r ∧ t.digitCount? r = s.digitCount? r ∧ t.wordCount? r = s.wordCount? r

/-- `c_i` of R126 from the digits a state holds. -/
def carry (s : State) (rd rs : RegNum) : Nat → Nat
  | 0 => 0
  | i + 1 => (s.digitNat rd i + s.digitNat rs i) / 10

/-- The final-carry sum of R119 does not stop ADD: it is stored truncated, or there is none above 15. -/
def SpareSumAllowed (s : State) (rd rs : RegNum) (n dcSelf : Nat) : Prop :=
  s.cfg.setdOverflow = .truncate ∨ carry s rd rs n = 0 ∨ n = dcSelf ∨ s.digitNat rd n + carry s rd rs n ≤ 15

/-- How many responses PDA has made that reset did not drop: those delivered and the one pending. -/
def responsesMade (s : State) : Nat := s.delivered.length + s.response.toList.length

/-- The signed value of register `rd`: `val(rd)`, negated when the sign slot is nonzero (R136, R137). -/
def signedValue (s : State) (rd : RegNum) : Int :=
  let m := s.valOf rd ((s.digitCount? rd).getD 0)
  if s.signAt rd ≠ some 0 then -(m : Int) else (m : Int)

/-- The signed value fits `accw` bits: at most `2^(accw-1) - 1`, at least `-2^(accw-1)` (R138, U1). -/
def Fits (accw : Nat) (x : Int) : Prop := -(2 ^ (accw - 1)) ≤ x ∧ x ≤ 2 ^ (accw - 1) - 1

end Sys2Proof.Spec

open Sys2Proof.Spec

/-! ### Encoding (spec/30_encoding.md) -/

/-- The worked encodings that the spec derives in R71 from R61 and R64, and its three illegal words, for `NV = 4`. -/
def Obligations.WorkedEncodingsDecode : Prop :=
  decode 4 0x10000003 = .ok (.alloc 0 3) ∧ decode 4 0x11000002 = .ok (.alloc 1 2) ∧
  decode 4 0x40030000 = .ok (.setd 0 0 3) ∧ decode 4 0x40020001 = .ok (.setd 0 1 2) ∧
  decode 4 0x41040001 = .ok (.setd 1 1 4) ∧ decode 4 0x50000002 = .ok (.getd 0 2) ∧
  decode 4 0x60000000 = .ok (.sign 0) ∧ decode 4 0x70100000 = .ok (.add 0 1) ∧
  decode 4 0x32000000 = .ok (.copy 2 0) ∧ decode 4 0x80000000 = .ok (.cvt 0) ∧
  decode 4 0x21000000 = .ok (.free 1) ∧
  (∃ why, decode 4 0x00000000 = .error why) ∧ (∃ why, decode 4 0x70100001 = .error why) ∧
  (∃ why, decode 4 0x64000000 = .error why)

/-- R64 with the operand fields of R61: a word is the command, with those operands, exactly when it agrees with `match`
under `mask`, the operands are its fields, and the register numbers are below `NV`. -/
def Obligations.OpcodeMapIsMatchAndMask : Prop :=
  ∀ (nv : Nat) (word : CommandWord),
    (∀ rd dc, decode nv word = .ok (.alloc rd dc) ↔ word &&& 0xF0FF0000 = 0x10000000 ∧
      rd.toNat = slice word 24 4 ∧ dc.toNat = slice word 0 16 ∧ rd.toNat < nv) ∧
    (∀ rd, decode nv word = .ok (.free rd) ↔ word &&& 0xF0FFFFFF = 0x20000000 ∧
      rd.toNat = slice word 24 4 ∧ rd.toNat < nv) ∧
    (∀ rd rs, decode nv word = .ok (.copy rd rs) ↔ word &&& 0xF00FFFFF = 0x30000000 ∧
      rd.toNat = slice word 24 4 ∧ rs.toNat = slice word 20 4 ∧ rd.toNat < nv ∧ rs.toNat < nv) ∧
    (∀ rd idx val, decode nv word = .ok (.setd rd idx val) ↔ word &&& 0xF0F00000 = 0x40000000 ∧
      rd.toNat = slice word 24 4 ∧ idx.toNat = slice word 0 16 ∧ val.toNat = slice word 16 4 ∧ rd.toNat < nv) ∧
    (∀ rd idx, decode nv word = .ok (.getd rd idx) ↔ word &&& 0xF0FF0000 = 0x50000000 ∧
      rd.toNat = slice word 24 4 ∧ idx.toNat = slice word 0 16 ∧ rd.toNat < nv) ∧
    (∀ rd, decode nv word = .ok (.sign rd) ↔ word &&& 0xF0FFFFFF = 0x60000000 ∧
      rd.toNat = slice word 24 4 ∧ rd.toNat < nv) ∧
    (∀ rd rs, decode nv word = .ok (.add rd rs) ↔ word &&& 0xF00FFFFF = 0x70000000 ∧
      rd.toNat = slice word 24 4 ∧ rs.toNat = slice word 20 4 ∧ rd.toNat < nv ∧ rs.toNat < nv) ∧
    (∀ rd, decode nv word = .ok (.cvt rd) ↔ word &&& 0xF0FFFFFF = 0x80000000 ∧
      rd.toNat = slice word 24 4 ∧ rd.toNat < nv)

/-- Every legal command of every PDA survives encoding and decoding, with every operand (R61, R62, R64). -/
def Obligations.DecodeOfEncodeIsIdentity : Prop :=
  ∀ (nv : Nat) (i : Instr), i.wf nv = true → decode nv (encode i) = .ok i

/-- A word that decodes is the encoding of what it decodes to, so each command has one word (R62, R64). -/
def Obligations.EncodeOfDecodeIsIdentity : Prop :=
  ∀ (nv : Nat) (word : CommandWord) (i : Instr), decode nv word = .ok i → encode i = word ∧ i.wf nv = true

/-- R65: an illegal word changes nothing and is answered ERR_ILLEGAL with data 0, in every state that accepts it; every
other word is one of the eight commands. -/
def Obligations.IllegalWordsAreAnsweredIllegal : Prop :=
  ∀ (s : State) (word : CommandWord) (rest : List HostAction),
    s.host = .command word :: rest → s.response = none →
    (IllegalWord s.cfg.nv word → step s = .next ((s.hostDone rest).answer .errIllegal 0)) ∧
    (¬ IllegalWord s.cfg.nv word → ∃ i, decode s.cfg.nv word = .ok i)

/-! ### The digit_field_unpacker (spec/40_digit_field_unpacker.md) -/

/-- R80, R81: the bit offset and the word index of a digit index, their ranges, and what addressable means. -/
def Obligations.DigitIndexNamesWordAndOffset : Prop :=
  ∀ (c : Config), c.wf = true → ∀ (v : PackedDecimal c.w) (i : Nat),
    bitOffset c.dpw i = 4 * (i % c.dpw) ∧ 4 ∣ bitOffset c.dpw i ∧ bitOffset c.dpw i ≤ c.w - 4 ∧
    wordIndex c.dpw i = i / c.dpw ∧ (v.addressable i = true ↔ wordIndex c.dpw i < v.wc) ∧
    (wordIndex c.dpw i < v.wc ↔ i < v.wc * c.dpw)

/-- R82, R83: `get_digit` is the word's slice at the digit's offset; `set_digit` replaces that slice of that word and
leaves its lower and higher bits and every other word as they were. -/
def Obligations.DigitIsSliceOfItsWord : Prop :=
  ∀ (c : Config) (v : PackedDecimal c.w) (d : Digit) (i : Nat), c.wf = true → v.coherent = true → v.addressable i = true →
    let k := i / c.dpw
    let off := 4 * (i % c.dpw)
    let old := (v.memRead k).toNat
    (v.getDigit i).toNat = old / 2 ^ off % 16 ∧
    ((v.setDigit d i).memRead k).toNat = old / 2 ^ (off + 4) * 2 ^ (off + 4) + d.toNat * 2 ^ off + old % 2 ^ off ∧
    ∀ j, j ≠ k → (v.setDigit d i).memRead j = v.memRead j

/-- The laws that the spec derives in R91 from R82 and R83: read after write, frame, overwrite, commutation, and that
reading changes nothing. -/
def Obligations.FieldWriteLaws : Prop :=
  (∀ (c : Config) (v : PackedDecimal c.w) (u d : Digit) (i j : Nat), c.wf = true → v.coherent = true →
    v.addressable i = true → v.addressable j = true →
    (v.setDigit d i).getDigit i = d ∧
    (j ≠ i → (v.setDigit d i).getDigit j = v.getDigit j) ∧
    (v.setDigit u i).setDigit d i = v.setDigit d i ∧
    (j ≠ i → (v.setDigit u i).setDigit d j = (v.setDigit d j).setDigit u i)) ∧
  (∀ (s : State) (r r' : RegNum) (v : PackedDecimal s.cfg.w) (d : Digit) (i : Nat), s.value? r = some v → r' ≠ r →
    s.SameRegister (s.setReg r (some (v.setDigit d i))) r') ∧
  ∀ (s t : State) (rd : RegNum) (idx : Index), exec (.getd rd idx) s = .next t → ∃ a, t = { s with response := some a }

/-- R85: GETD, all its outcomes in the order of the checks. -/
def Obligations.GetdReadsOneDigit : Prop :=
  ∀ (s : State) (rd : RegNum) (idx : Index), s.Inv →
    (s.cfg.nv ≤ rd.toNat → exec (.getd rd idx) s = .next (s.answer .errIllegal 0)) ∧
    (rd.toNat < s.cfg.nv → s.valid rd = false → exec (.getd rd idx) s = .next (s.answer .errUnalloc 0)) ∧
    (∀ wc, s.wordCount? rd = some wc → wc * s.cfg.dpw ≤ idx.toNat →
      exec (.getd rd idx) s = .next (s.answer .errRange 0)) ∧
    (∀ wc, s.wordCount? rd = some wc → idx.toNat < wc * s.cfg.dpw →
      ∃ d, s.digitAt rd idx.toNat = some d ∧
        exec (.getd rd idx) s = .next (s.answer .ok (d.setWidth s.cfg.accw)))

/-- R86: SETD, all its outcomes; when it completes, the one field holds `val`, whatever `val` is, and nothing else is
written: no other digit, no word but the digit's own, no count, not ACC. -/
def Obligations.SetdWritesOneDigit : Prop :=
  ∀ (s : State) (rd : RegNum) (idx : Index) (val : Digit), s.Inv →
    (s.cfg.nv ≤ rd.toNat → exec (.setd rd idx val) s = .next (s.answer .errIllegal 0)) ∧
    (rd.toNat < s.cfg.nv → s.valid rd = false → exec (.setd rd idx val) s = .next (s.answer .errUnalloc 0)) ∧
    (∀ wc, s.wordCount? rd = some wc → wc * s.cfg.dpw ≤ idx.toNat →
      exec (.setd rd idx val) s = .next (s.answer .errRange 0)) ∧
    (∀ wc, s.wordCount? rd = some wc → idx.toNat < wc * s.cfg.dpw →
      ∃ t, exec (.setd rd idx val) s = .next t ∧ t.answer? = some (.ok, 0) ∧
        t.digitAt rd idx.toNat = some val ∧
        (∀ i, i ≠ idx.toNat → t.digitAt rd i = s.digitAt rd i) ∧
        (∀ k, k ≠ wordIndex s.cfg.dpw idx.toNat → t.wordAt rd k = s.wordAt rd k) ∧
        CountsKept s t rd ∧ OthersKept s t rd)

/-- R87: SIGN, all its outcomes; it answers the raw sign slot, as GETD of index `dc` does. -/
def Obligations.SignReadsSignSlot : Prop :=
  ∀ (s : State) (rd : RegNum), s.Inv →
    (s.cfg.nv ≤ rd.toNat → exec (.sign rd) s = .next (s.answer .errIllegal 0)) ∧
    (rd.toNat < s.cfg.nv → s.valid rd = false → exec (.sign rd) s = .next (s.answer .errUnalloc 0)) ∧
    (∀ dc, s.digitCount? rd = some dc →
      ∃ d, s.digitAt rd dc = some d ∧ exec (.sign rd) s = .next (s.answer .ok (d.setWidth s.cfg.accw)) ∧
        exec (.sign rd) s = exec (.getd rd (BitVec.ofNat 16 dc)) s)

/-! ### The operand store (spec/41_value_store.md) -/

/-- R100: ALLOC, all its outcomes; when it completes, `rd` is valid with `dc` digits and `dc div DPW + 1` words, each of
them existing, all 0 under `alloc_fill = zero`; under `any` nothing is said of what they hold. -/
def Obligations.AllocMakesFreshValue : Prop :=
  ∀ (s : State) (rd : RegNum) (dc : Index), s.Inv →
    (s.cfg.nv ≤ rd.toNat → exec (.alloc rd dc) s = .next (s.answer .errIllegal 0)) ∧
    (rd.toNat < s.cfg.nv → dc.toNat = 0 → exec (.alloc rd dc) s = .next (s.answer .errInvalidArg 0)) ∧
    (rd.toNat < s.cfg.nv → s.cfg.maxd < dc.toNat → exec (.alloc rd dc) s = .next (s.answer .errCapacity 0)) ∧
    (rd.toNat < s.cfg.nv → 1 ≤ dc.toNat → dc.toNat ≤ s.cfg.maxd →
      ∃ t, exec (.alloc rd dc) s = .next t ∧ t.answer? = some (.ok, 0) ∧ t.valid rd = true ∧
        t.digitCount? rd = some dc.toNat ∧ t.wordCount? rd = some (dc.toNat / s.cfg.dpw + 1) ∧
        (∀ k, (t.wordAt rd k).isSome = decide (k < dc.toNat / s.cfg.dpw + 1)) ∧
        (s.cfg.allocFill = .zero → ∀ k, k < dc.toNat / s.cfg.dpw + 1 → t.wordAt rd k = some 0) ∧
        OthersKept s t rd)

/-- The model's choice of log entry 5 for the draws of R33 and R100: under `alloc_fill = any` word `k` of the new buffer is the free value of index `draws + k`,
whatever that value is, and the counter passes every index used, so that no later draw repeats one. -/
def Obligations.AllocDrawsEachWordOnce : Prop :=
  ∀ (s : State) (rd : RegNum) (dc : Index), s.Inv → s.cfg.allocFill = .any → rd.toNat < s.cfg.nv → 1 ≤ dc.toNat →
    dc.toNat ≤ s.cfg.maxd → ∃ t, exec (.alloc rd dc) s = .next t ∧
      ∀ k, k < dc.toNat / s.cfg.dpw + 1 →
        t.wordAt rd k = some (Config.draw (s.draws + k) s.cfg.w).toNat ∧ s.draws + k < t.draws

/-- R101: FREE, all its outcomes; when it completes, only `rd`'s valid bit is cleared. -/
def Obligations.FreeInvalidatesRegister : Prop :=
  ∀ (s : State) (rd : RegNum), s.Inv →
    (s.cfg.nv ≤ rd.toNat → exec (.free rd) s = .next (s.answer .errIllegal 0)) ∧
    (rd.toNat < s.cfg.nv → s.valid rd = false → exec (.free rd) s = .next (s.answer .errUnalloc 0)) ∧
    (s.valid rd = true → ∃ t, exec (.free rd) s = .next t ∧ t.answer? = some (.ok, 0) ∧ t.valid rd = false ∧
      OthersKept s t rd)

/-- R102: COPY, all its outcomes; when it completes with `rd` other than `rs`, `rd` holds the counts and every word of
`rs`, and `rs` and all else are unchanged; onto itself it changes nothing. -/
def Obligations.CopyIsDeep : Prop :=
  ∀ (s : State) (rd rs : RegNum), s.Inv →
    (s.cfg.nv ≤ rd.toNat ∨ s.cfg.nv ≤ rs.toNat → exec (.copy rd rs) s = .next (s.answer .errIllegal 0)) ∧
    (rd.toNat < s.cfg.nv → rs.toNat < s.cfg.nv → s.valid rs = false →
      exec (.copy rd rs) s = .next (s.answer .errUnalloc 0)) ∧
    (rd = rs → s.valid rs = true → exec (.copy rd rs) s = .next (s.answer .ok 0)) ∧
    (rd ≠ rs → rd.toNat < s.cfg.nv → s.valid rs = true →
      ∃ t, exec (.copy rd rs) s = .next t ∧ t.answer? = some (.ok, 0) ∧ t.valid rd = true ∧
        t.digitCount? rd = s.digitCount? rs ∧ t.wordCount? rd = s.wordCount? rs ∧
        (∀ k, t.wordAt rd k = s.wordAt rs k) ∧ OthersKept s t rd)

/-- Copy independence, which the spec derives in R103, and R34: whatever a command does, every register that is not its destination is the same afterwards, in every state;
GETD, SIGN and CVT have none. So a copy and its original are independent. -/
def Obligations.OnlyDestinationRegisterChanges : Prop :=
  ∀ (s t : State) (i : Instr) (r : RegNum), exec i s = .next t → i.dest ≠ some r → s.SameRegister t r

/-- R22, R104: of every register, the commands on digits leave the valid bit, the digit count and the word count. -/
def Obligations.DigitCommandsKeepCounts : Prop :=
  ∀ (s t : State) (rd rs : RegNum) (idx : Index) (val : Digit) (i : Instr),
    (i = .setd rd idx val ∨ i = .getd rd idx ∨ i = .sign rd ∨ i = .add rd rs ∨ i = .cvt rd) →
    exec i s = .next t → ∀ r, CountsKept s t r

/-! ### The bcd_ripple_adder (spec/42_bcd_ripple_adder.md) -/

/-- What the spec derives in R118 from R117: the widths and bounds of the digit step, for all fields and for canonical ones. -/
def Obligations.DigitStepBounds : Prop :=
  ∀ (a b : Digit) (c : Nat), c ≤ 3 →
    digitSum a b ≤ 30 ∧ carryOut a b ≤ 3 ∧ digitSum a b % 10 ≤ 9 ∧
    (sumDigit a b c).toNat = digitSum a b % 10 + c ∧ (sumDigit a b c).toNat ≤ 12 ∧
    (a.toNat ≤ 9 → b.toNat ≤ 9 → digitSum a b ≤ 18 ∧ carryOut a b ≤ 1 ∧ (c ≤ 1 → (sumDigit a b c).toNat ≤ 10))

/-- ADD as the digit step of R117 and the final carry of R119, R120 make it (the closed form that the spec derives in
R126). Digits below `n` are sums of the OLD digits with the carry from the position below added
after the reduction; a final carry goes into digit `n` mod 16 where self has one; every other digit and everything else
stays; the response is OK with data 0. -/
def Obligations.AddClosedForm : Prop :=
  ∀ (s : State) (rd rs : RegNum) (dcSelf dcOther : Nat), s.Inv →
    s.digitCount? rd = some dcSelf → s.digitCount? rs = some dcOther →
    let n := min dcSelf dcOther
    SpareSumAllowed s rd rs n dcSelf →
    ∃ t, exec (.add rd rs) s = .next t ∧ t.answer? = some (.ok, 0) ∧
      (∀ i, i < n → t.digitNat rd i = (s.digitNat rd i + s.digitNat rs i) % 10 + carry s rd rs i) ∧
      (carry s rd rs n ≠ 0 → n < dcSelf → t.digitNat rd n = (s.digitNat rd n + carry s rd rs n) % 16) ∧
      (∀ i, n ≤ i → ¬ (i = n ∧ carry s rd rs n ≠ 0 ∧ n < dcSelf) → t.digitAt rd i = s.digitAt rd i) ∧
      CountsKept s t rd ∧ OthersKept s t rd

/-- What ADD does not change, whatever it does (the spec derives it in R128 from R115). -/
def Obligations.AddFrame : Prop :=
  ∀ (s t : State) (rd rs : RegNum) (dcSelf dcOther : Nat), s.Inv →
    s.digitCount? rd = some dcSelf → s.digitCount? rs = some dcOther → exec (.add rd rs) s = .next t →
    CountsKept s t rd ∧ t.signAt rd = s.signAt rd ∧
    (∀ i, min dcSelf dcOther < i → t.digitAt rd i = s.digitAt rd i) ∧
    (∀ r, r ≠ rd → s.SameRegister t r) ∧ t.acc.toNat = s.acc.toNat

/-- The arithmetic law of ADD that the spec derives in R129, with the loss `L` of a dropped or truncated final carry. -/
def Obligations.AddValueLaw : Prop :=
  ∀ (s : State) (rd rs : RegNum) (dcSelf dcOther : Nat), s.Inv →
    s.digitCount? rd = some dcSelf → s.digitCount? rs = some dcOther →
    let n := min dcSelf dcOther
    SpareSumAllowed s rd rs n dcSelf →
    let cn := carry s rd rs n
    let loss :=
      if cn = 0 then 0
      else if n = dcSelf then cn * 10 ^ n
      else if s.digitNat rd n + cn ≤ 15 then 0
      else 16 * 10 ^ n
    ∃ t, exec (.add rd rs) s = .next t ∧
      t.valOf rd dcSelf + loss = s.valOf rd dcSelf + s.valOf rs n

/-- R124: ADD of a register to itself completes; every digit is the sum of the old digit with itself and the carry, the
final carry is dropped, and the register holds what COPY into a scratch register and ADD of that leave in it. -/
def Obligations.AddToItselfIsAddOfCopy : Prop :=
  ∀ (s : State) (r : RegNum) (dc : Nat), s.Inv → s.digitCount? r = some dc →
    ∃ t, exec (.add r r) s = .next t ∧
      (∀ i, i < dc → t.digitNat r i = 2 * s.digitNat r i % 10 + carry s r r i) ∧
      (∀ i, dc ≤ i → t.digitAt r i = s.digitAt r i) ∧
      ∀ scratch : RegNum, scratch.toNat < s.cfg.nv → scratch ≠ r →
        ∃ u v, exec (.copy scratch r) s = .next u ∧ exec (.add r scratch) u = .next v ∧ t.SameRegister v r

/-- R121, R122: two states that agree on the digits of self and on the digits of other below `n`, whatever their signs and
other's higher digits are, have the same digits of self after ADD; self keeps its sign slot and its digits above `n`. -/
def Obligations.AddIgnoresSignsAndHighDigits : Prop :=
  ∀ (s s' t t' : State) (rd rs : RegNum) (dcSelf dcOther : Nat), s.Inv → s'.Inv → s'.cfg = s.cfg →
    s.digitCount? rd = some dcSelf → s.digitCount? rs = some dcOther →
    s'.digitCount? rd = some dcSelf → s'.digitCount? rs = some dcOther →
    (∀ i, i < dcSelf → s'.digitAt rd i = s.digitAt rd i) →
    (∀ i, i < min dcSelf dcOther → s'.digitAt rs i = s.digitAt rs i) →
    exec (.add rd rs) s = .next t → exec (.add rd rs) s' = .next t' →
    (∀ i, i < dcSelf → t'.digitAt rd i = t.digitAt rd i) ∧ t.signAt rd = s.signAt rd ∧ t'.signAt rd = s'.signAt rd ∧
      ∀ i, min dcSelf dcOther < i → t.digitAt rd i = s.digitAt rd i

/-- U2 with R119: under `setd_overflow = refuse` ADD has no meaning when the final-carry sum is above 15; the model refuses
by name (log entry 13). -/
def Obligations.AddRefusesSpareSumAboveFifteen : Prop :=
  ∀ (s : State) (rd rs : RegNum) (dcSelf dcOther : Nat), s.Inv →
    s.digitCount? rd = some dcSelf → s.digitCount? rs = some dcOther → s.cfg.setdOverflow = .refuse →
    dcOther < dcSelf → carry s rd rs dcOther ≠ 0 → 15 < s.digitNat rd dcOther + carry s rd rs dcOther →
    exec (.add rd rs) s = .refused .spareSlotOverflow

/-! ### The bcd_digit_accumulator (spec/43_bcd_digit_accumulator.md) -/

/-- CVT (R135, R137, R138), all its outcomes. That a value which does not fit is REFUSED by name under `refuse` is the
model's form of "no meaning" (log entry 13). Under `wrap`, and under `refuse` when the value fits, ACC and the response data are
the signed value modulo `2^ACCW`, and no register changes; under `refuse` a value that does not fit has no meaning. -/
def Obligations.CvtIsSignedValueModulo : Prop :=
  ∀ (s : State) (rd : RegNum), s.Inv →
    (s.cfg.nv ≤ rd.toNat → exec (.cvt rd) s = .next (s.answer .errIllegal 0)) ∧
    (rd.toNat < s.cfg.nv → s.valid rd = false → exec (.cvt rd) s = .next (s.answer .errUnalloc 0)) ∧
    (s.valid rd = true → s.cfg.accOverflow = .refuse → ¬ Fits s.cfg.accw (signedValue s rd) →
      exec (.cvt rd) s = .refused .accumulatorOverflow) ∧
    (s.valid rd = true → s.cfg.accOverflow = .wrap ∨ Fits s.cfg.accw (signedValue s rd) →
      ∃ t, exec (.cvt rd) s = .next t ∧ (t.acc.toNat : Int) = signedValue s rd % 2 ^ s.cfg.accw ∧
        t.answer? = some (.ok, t.acc.toNat) ∧ (∀ r, s.SameRegister t r) ∧ s.SameSurroundings t)

/-- When the value fits (R138), the host's signed reading of ACC (R140) is the value. -/
def Obligations.CvtIsExactWhenValueFits : Prop :=
  ∀ (s : State) (rd : RegNum), s.Inv → s.valid rd = true → Fits s.cfg.accw (signedValue s rd) →
    ∃ t, exec (.cvt rd) s = .next t ∧
      (if t.acc.toNat < 2 ^ (s.cfg.accw - 1) then (t.acc.toNat : Int) else t.acc.toNat - 2 ^ s.cfg.accw) =
        signedValue s rd

/-- R29: ACC is written by CVT alone, in every state, and a CVT that succeeds answers what it wrote; and no command reads
it: with any other ACC a command answers the same and leaves the same registers. -/
def Obligations.AccIsWrittenByCvtAlone : Prop :=
  ∀ (s t : State) (i : Instr), exec i s = .next t →
    ((∀ rd, i ≠ .cvt rd) → t.acc.toNat = s.acc.toNat) ∧
    (∀ rd n, i = .cvt rd → t.answer? = some (.ok, n) → n = t.acc.toNat) ∧
    ∀ a : BitVec s.cfg.accw, ∃ u, exec i { s with acc := a } = .next u ∧ u.answer? = t.answer? ∧
      (∀ r, t.SameRegister u r) ∧ t.SameSurroundings u

/-! ### Errors (spec/60_exceptions.md) -/

/-- R172, R174: a word that the table gives an error, in the order of R173, is answered with that status and data 0 and
changes nothing; any other word, if it completes, is answered OK. -/
def Obligations.ErrorsAreExactlyTheTable : Prop :=
  ∀ (s : State) (word : CommandWord) (rest : List HostAction), s.Inv →
    s.host = .command word :: rest → s.response = none →
    (IllegalWord s.cfg.nv word → step s = .next ((s.hostDone rest).answer .errIllegal 0)) ∧
    (∀ i, ¬ IllegalWord s.cfg.nv word → decode s.cfg.nv word = .ok i →
      (∀ e, commandError s i = some e → step s = .next ((s.hostDone rest).answer e 0)) ∧
      (commandError s i = none → ∀ t, step s = .next t → ∃ n, t.answer? = some (.ok, n)))

/-- R171: the code of each status; no other code is ever on the response channel; and whatever word is answered, in whatever
state, a response whose code is not 0 carries data 0. -/
def Obligations.StatusCodesAreTheTable : Prop :=
  Status.ok.code = 0 ∧ Status.errInvalidArg.code = 1 ∧ Status.errIllegal.code = 2 ∧ Status.errUnalloc.code = 3 ∧
  Status.errRange.code = 4 ∧ Status.errCapacity.code = 5 ∧
  ∀ (s t : State) (word : CommandWord) (rest : List HostAction), s.host = .command word :: rest → s.response = none →
    step s = .next t → ∃ a, t.response = some a ∧ a.onChannel.1.toNat ≤ 5 ∧
      (a.onChannel.1 ≠ 0 → a.onChannel.2.toNat = 0)

/-! ### The machine (spec/30_encoding.md, spec/70_reset_and_hazards.md) -/

/-- A step at a state in which the host presents a word (the host's actions: log entry 6) and no response is pending,
runs the command the word decodes to, the host's action done (R60, R193). -/
def Obligations.StepRunsDecodedCommand : Prop :=
  ∀ (s : State) (word : CommandWord) (rest : List HostAction) (i : Instr), s.host = .command word :: rest →
    s.response = none → decode s.cfg.nv word = .ok i → step s = exec i (s.hostDone rest)

/-- How the host's actions meet R60 and R200 (log entry 6): while a response is pending no command is accepted; the host's taking it moves that response, and only it,
to the responses delivered; with nothing pending a take waits; with no action nothing changes. -/
def Obligations.HandshakeOrdersCommandsAndResponses : Prop :=
  ∀ (s : State) (rest : List HostAction),
    (∀ word a, s.host = .command word :: rest → s.response = some a → step s = .next s) ∧
    (∀ a, s.host = .takeResponse :: rest → s.response = some a →
      step s = .next { s with host := rest, response := none, delivered := s.delivered ++ [a] }) ∧
    (s.host = .takeResponse :: rest → s.response = none → step s = .next s) ∧
    (s.host = [] → step s = .next s)

/-- R60 over the host's actions of log entry 6: exactly one response per accepted command, none lost but by reset: a step that accepts a command adds one to the
responses delivered or pending; one that refuses to accept, delivers or idles adds none and loses none. -/
def Obligations.OneResponsePerAcceptedCommand : Prop :=
  ∀ (s t : State) (rest : List HostAction), step s = .next t →
    (∀ word, s.host = .command word :: rest → s.response = none → responsesMade t = responsesMade s + 1) ∧
    (∀ word, s.host = .command word :: rest → s.response ≠ none → responsesMade t = responsesMade s) ∧
    (s.host = .takeResponse :: rest → responsesMade t = responsesMade s) ∧
    (s.host = [] → responsesMade t = responsesMade s)

/-- The reset input (R190, one atomic step: log entry 7) acts in every state: every register invalid, the interface idle, no
response pending; the parameters and the responses the host has taken stay. -/
def Obligations.ResetInputInvalidatesEverything : Prop :=
  ∀ (s : State) (rest : List HostAction), s.host = .reset :: rest →
    ∃ t, step s = .next t ∧ (∀ r, t.valid r = false) ∧ t.answer? = none ∧ t.host = rest ∧ t.cfg = s.cfg ∧
      t.delivered.map (fun a => (a.status, a.data.toNat)) = s.delivered.map (fun a => (a.status, a.data.toNat))

/-- After the reset input (log entry 7) every command word is accepted and answered; a command that is no ALLOC needs a value
and answers ERR_UNALLOC (the spec derives it in R191). -/
def Obligations.AfterResetCommandsNeedAlloc : Prop :=
  ∀ (s : State) (word : CommandWord) (rest : List HostAction),
    let u : State := { s.resetInput with host := .command word :: rest }
    ∃ t, step u = .next t ∧ t.host = rest ∧ (t.answer?).isSome ∧
      ∀ i, decode s.cfg.nv word = .ok i → (∀ rd dc, i ≠ .alloc rd dc) → t.answer? = some (.errUnalloc, 0)

/-- R35: after reset no register is valid, no response is pending and the interface is ready: a word presented then is
answered in the next step. (R35 leaves ACC unspecified; the statement says nothing of it.) -/
def Obligations.ResetLeavesNoValueAndIdleInterface : Prop :=
  (∀ r, State.reset.valid r = false) ∧ State.reset.answer? = none ∧
    ∀ word, ∃ t, step { State.reset with host := [.command word] } = .next t ∧ (t.answer?).isSome

/-- `State.Inv` (the model's invariant) holds at reset. -/
def Obligations.ResetStateMeetsInvariant : Prop := State.reset.Inv

/-- Every step keeps `State.Inv`: admissible parameters, every valid register's counts in range with `wc = dc div DPW + 1`
and exactly `wc` words (R20, R23, R28), data 0 on every error response (R67, R171). -/
def Obligations.StepKeepsInvariant : Prop :=
  ∀ (s t : State), s.Inv → step s = .next t → t.Inv

/-- A step never changes the parameters: they are not run-time state (R31). -/
def Obligations.ParametersNeverChange : Prop :=
  ∀ (s t : State), step s = .next t → t.cfg = s.cfg

/-- R198, which the spec derives, with the refusals of U1 and U2 (their form: log entry 13): from a state that meets the invariant no step faults; a step stops only where a parameter says `refuse`, at CVT or
ADD; and a word presented to a ready PDA that does not stop there is accepted and answered in that step. -/
def Obligations.EveryAcceptedCommandIsAnswered : Prop :=
  ∀ (s : State), s.Inv →
    (∀ f, step s ≠ .fault f) ∧
    (∀ r, step s = .refused r →
      r = .accumulatorOverflow ∧ s.cfg.accOverflow = .refuse ∨ r = .spareSlotOverflow ∧ s.cfg.setdOverflow = .refuse) ∧
    (s.cfg.accOverflow = .wrap → s.cfg.setdOverflow = .truncate → SafeStep s) ∧
    (∀ word rest t, s.host = .command word :: rest → s.response = none → step s = .next t →
      (t.answer?).isSome ∧ t.host = rest)

/-! ### Host procedures (spec/44_host_procedures.md) and assembler text (R69) -/

/-- R150: `count_decimal_digits(m)` is the least `k >= 1` with `m < 10^k`. -/
def Obligations.CountDecimalDigitsIsLeast : Prop :=
  ∀ (m : Nat), 1 ≤ countDecimalDigits m ∧ m < 10 ^ countDecimalDigits m ∧
    ∀ k, 1 ≤ k → m < 10 ^ k → countDecimalDigits m ≤ k

/-- R153: NEWS fails with invalid-argument for the null string, the empty string, the bare sign, and any string with a
character after the optional leading '-' that is no decimal digit, and for no other. -/
def Obligations.NewsRefusesExactlyMalformedStrings : Prop :=
  ∀ (rd : RegNum), news rd none = .error .invalidArgument ∧
    ∀ (string : List Char), news rd (some string) = .error .invalidArgument ↔
      string = [] ∨ string = ['-'] ∨
        ∃ c ∈ (if string.head? = some '-' then string.tail else string), ¬ (48 ≤ c.toNat ∧ c.toNat ≤ 57)

/-- With the host's list of actions, the model's form of the channels (log entry 6): a legal command presented and its
response taken are two steps of PDA, `exec` of the command and the delivery (R60, R193, R200). -/
def Obligations.CommandAndTakeAreTwoSteps : Prop :=
  ∀ (s t : State) (i : Instr) (rest : List HostAction), i.wf s.cfg.nv = true → s.response = none →
    exec i { s with host := .takeResponse :: rest } = .next t →
    ∃ u, step { s with host := .command (encode i) :: .takeResponse :: rest } = .next u ∧
      step u = .next (t.deliver.hostDone rest)

/-- The round trip that the spec derives in R141: NEWI of an integer whose magnitude fits, then CVT, responds with the integer modulo `2^ACCW`. The digit count
must fit the register (R151: ALLOC answers ERR_CAPACITY otherwise). -/
def Obligations.IntegerRoundTrip : Prop :=
  ∀ (s : State) (rd : RegNum) (value : Int), s.Inv → rd.toNat < s.cfg.nv →
    -(2 ^ (s.cfg.accw - 1)) < value → value < 2 ^ (s.cfg.accw - 1) →
    countDecimalDigits value.natAbs ≤ s.cfg.maxd →
    ∃ (commands : List Instr) (t : State) (data : List Nat) (x : Nat), newi s.cfg.accw rd value = .ok commands ∧
      perform (commands ++ [.cvt rd]) s = .done t (data ++ [x]) ∧ (x : Int) = value % 2 ^ s.cfg.accw

/-- The round trip that the spec derives in R156: for every string of an optional '-' and at least one decimal digit, not longer than a register can hold, NEWS
completes and RENDER gives the string back. -/
def Obligations.StringRoundTrip : Prop :=
  ∀ (s : State) (rd : RegNum) (negative : Bool) (body : List Char), s.Inv → rd.toNat < s.cfg.nv → body ≠ [] →
    (∀ c ∈ body, 48 ≤ c.toNat ∧ c.toNat ≤ 57) → body.length ≤ s.cfg.maxd →
    let string := if negative then '-' :: body else body
    ∃ commands t data, news rd (some string) = .ok commands ∧ perform commands s = .done t data ∧
      render rd body.length t = some string

/-- R69: a command written as assembler text reads back as itself. -/
def Obligations.AssemblyTextReadsBack : Prop :=
  ∀ (i : Instr), readLine (assemblyText i) = some (some i)
end

