-- ==== Sys2Proof/Laws/State.lean ====
section
/-! SUPPORT. One lemma per field per update of State, so that no proof unfolds a record update. -/

namespace Sys2Proof.Machine

variable (s : State)

@[simp] theorem State.setReg_cfg (r : RegNum) (v : Option (PackedDecimal s.cfg.w)) : (s.setReg r v).cfg = s.cfg := rfl
@[simp] theorem State.setReg_regs (r : RegNum) (v : Option (PackedDecimal s.cfg.w)) : (s.setReg r v).regs = s.regs.setIfInBounds r.toNat v := rfl
@[simp] theorem State.setReg_acc (r : RegNum) (v : Option (PackedDecimal s.cfg.w)) : (s.setReg r v).acc = s.acc := rfl
@[simp] theorem State.setReg_response (r : RegNum) (v : Option (PackedDecimal s.cfg.w)) : (s.setReg r v).response = s.response := rfl
@[simp] theorem State.setReg_delivered (r : RegNum) (v : Option (PackedDecimal s.cfg.w)) : (s.setReg r v).delivered = s.delivered := rfl
@[simp] theorem State.setReg_host (r : RegNum) (v : Option (PackedDecimal s.cfg.w)) : (s.setReg r v).host = s.host := rfl
@[simp] theorem State.setReg_draws (r : RegNum) (v : Option (PackedDecimal s.cfg.w)) : (s.setReg r v).draws = s.draws := rfl

@[simp] theorem State.setAcc_cfg (a : BitVec s.cfg.accw) : (s.setAcc a).cfg = s.cfg := rfl
@[simp] theorem State.setAcc_regs (a : BitVec s.cfg.accw) : (s.setAcc a).regs = s.regs := rfl
@[simp] theorem State.setAcc_acc (a : BitVec s.cfg.accw) : (s.setAcc a).acc = a := rfl
@[simp] theorem State.setAcc_response (a : BitVec s.cfg.accw) : (s.setAcc a).response = s.response := rfl
@[simp] theorem State.setAcc_delivered (a : BitVec s.cfg.accw) : (s.setAcc a).delivered = s.delivered := rfl
@[simp] theorem State.setAcc_host (a : BitVec s.cfg.accw) : (s.setAcc a).host = s.host := rfl
@[simp] theorem State.setAcc_draws (a : BitVec s.cfg.accw) : (s.setAcc a).draws = s.draws := rfl

@[simp] theorem State.answer_cfg (e : Status) (d : BitVec s.cfg.accw) : (s.answer e d).cfg = s.cfg := rfl
@[simp] theorem State.answer_regs (e : Status) (d : BitVec s.cfg.accw) : (s.answer e d).regs = s.regs := rfl
@[simp] theorem State.answer_acc (e : Status) (d : BitVec s.cfg.accw) : (s.answer e d).acc = s.acc := rfl
@[simp] theorem State.answer_response (e : Status) (d : BitVec s.cfg.accw) : (s.answer e d).response = some ⟨e, d⟩ := rfl
@[simp] theorem State.answer_delivered (e : Status) (d : BitVec s.cfg.accw) : (s.answer e d).delivered = s.delivered := rfl
@[simp] theorem State.answer_host (e : Status) (d : BitVec s.cfg.accw) : (s.answer e d).host = s.host := rfl
@[simp] theorem State.answer_draws (e : Status) (d : BitVec s.cfg.accw) : (s.answer e d).draws = s.draws := rfl

@[simp] theorem State.drawn_cfg (n : Nat) : (s.drawn n).cfg = s.cfg := rfl
@[simp] theorem State.drawn_regs (n : Nat) : (s.drawn n).regs = s.regs := rfl
@[simp] theorem State.drawn_acc (n : Nat) : (s.drawn n).acc = s.acc := rfl
@[simp] theorem State.drawn_response (n : Nat) : (s.drawn n).response = s.response := rfl
@[simp] theorem State.drawn_delivered (n : Nat) : (s.drawn n).delivered = s.delivered := rfl
@[simp] theorem State.drawn_host (n : Nat) : (s.drawn n).host = s.host := rfl
@[simp] theorem State.drawn_draws (n : Nat) : (s.drawn n).draws = s.draws + n := rfl

@[simp] theorem State.hostDone_cfg (rest : List HostAction) : (s.hostDone rest).cfg = s.cfg := rfl
@[simp] theorem State.hostDone_regs (rest : List HostAction) : (s.hostDone rest).regs = s.regs := rfl
@[simp] theorem State.hostDone_acc (rest : List HostAction) : (s.hostDone rest).acc = s.acc := rfl
@[simp] theorem State.hostDone_response (rest : List HostAction) : (s.hostDone rest).response = s.response := rfl
@[simp] theorem State.hostDone_delivered (rest : List HostAction) : (s.hostDone rest).delivered = s.delivered := rfl
@[simp] theorem State.hostDone_host (rest : List HostAction) : (s.hostDone rest).host = rest := rfl
@[simp] theorem State.hostDone_draws (rest : List HostAction) : (s.hostDone rest).draws = s.draws := rfl

@[simp] theorem State.deliver_cfg : s.deliver.cfg = s.cfg := rfl
@[simp] theorem State.deliver_regs : s.deliver.regs = s.regs := rfl
@[simp] theorem State.deliver_acc : s.deliver.acc = s.acc := rfl
@[simp] theorem State.deliver_response : s.deliver.response = none := rfl
@[simp] theorem State.deliver_delivered : s.deliver.delivered = s.delivered ++ s.response.toList := rfl
@[simp] theorem State.deliver_host : s.deliver.host = s.host := rfl
@[simp] theorem State.deliver_draws : s.deliver.draws = s.draws := rfl

@[simp] theorem State.resetInput_cfg : s.resetInput.cfg = s.cfg := rfl
@[simp] theorem State.resetInput_regs : s.resetInput.regs = Vector.replicate s.cfg.nv none := rfl
@[simp] theorem State.resetInput_acc : s.resetInput.acc = Config.draw s.draws s.cfg.accw := rfl
@[simp] theorem State.resetInput_response : s.resetInput.response = none := rfl
@[simp] theorem State.resetInput_delivered : s.resetInput.delivered = s.delivered := rfl
@[simp] theorem State.resetInput_host : s.resetInput.host = s.host := rfl
@[simp] theorem State.resetInput_draws : s.resetInput.draws = s.draws + 1 := rfl

@[simp] theorem State.withFetchWord_cfg (n w : Nat) : (s.withFetchWord n w).cfg = s.cfg := rfl
@[simp] theorem State.withFetchWord_regs (n w : Nat) : (s.withFetchWord n w).regs = s.regs := rfl
@[simp] theorem State.withFetchWord_acc (n w : Nat) : (s.withFetchWord n w).acc = s.acc := rfl
@[simp] theorem State.withFetchWord_response (n w : Nat) : (s.withFetchWord n w).response = none := rfl
@[simp] theorem State.withFetchWord_delivered (n w : Nat) : (s.withFetchWord n w).delivered = s.delivered := rfl
@[simp] theorem State.withFetchWord_host (n w : Nat) : (s.withFetchWord n w).host = .command (BitVec.ofNat 32 w) :: s.host := rfl
@[simp] theorem State.withFetchWord_draws (n w : Nat) : (s.withFetchWord n w).draws = s.draws := rfl

end Sys2Proof.Machine
end

