-- ==== Sys2Proof/Laws/Unpacker.lean ====
section
/-! SUPPORT. The laws of the digit_field_unpacker: what one field of a word is, and what writing it leaves alone. -/

namespace Sys2Proof.Machine

theorem testBit_fifteen (j : Nat) : Nat.testBit 15 j = decide (j < 4) :=
  Nat.testBit_two_pow_sub_one 4 j

theorem getLsbD_fieldMask (w j : Nat) : (0xF#w).getLsbD j = (decide (j < w) && decide (j < 4)) := by
  rw [BitVec.getLsbD_ofNat, testBit_fifteen]

/-- Bit `j` of a field is bit `off + j` of the word. -/
theorem getLsbD_getField {w : Nat} (word : BitVec w) (off j : Nat) :
    (getField word off).getLsbD j = (decide (j < 4) && word.getLsbD (off + j)) := by
  unfold getField
  rw [BitVec.getLsbD_setWidth, BitVec.getLsbD_and, BitVec.getLsbD_ushiftRight, getLsbD_fieldMask]
  by_cases h : j < 4 <;> simp [h]
  intro hj
  by_contra hw
  rw [BitVec.getLsbD_of_ge _ _ (by omega)] at hj
  simp at hj

/-- Writing a field that lies inside the word: the four bits are the value's, every other bit stays. -/
theorem getLsbD_setField {w : Nat} (word : BitVec w) (v : Digit) (off j : Nat) (h : off + 4 ≤ w) :
    (setField word v off).getLsbD j = if off ≤ j ∧ j < off + 4 then v.getLsbD (j - off) else word.getLsbD j := by
  unfold setField
  rw [BitVec.getLsbD_or, BitVec.getLsbD_and, BitVec.getLsbD_not, BitVec.getLsbD_shiftLeft, BitVec.getLsbD_shiftLeft,
    getLsbD_fieldMask, BitVec.getLsbD_setWidth]
  by_cases hj : j < w
  · by_cases h1 : off ≤ j
    · by_cases h2 : j < off + 4
      · simp [hj, h1, h2, show ¬ j < off by omega, show j - off < w by omega, show j - off < 4 by omega]
      · simp [hj, h1, h2, show ¬ j < off by omega, show ¬ j - off < 4 by omega,
          BitVec.getLsbD_of_ge v (j - off) (by omega)]
    · simp [hj, h1, show j < off by omega]
  · simp [hj, show ¬ (off ≤ j ∧ j < off + 4) by omega, BitVec.getLsbD_of_ge word j (by omega)]

theorem getField_setField_same {w : Nat} (word : BitVec w) (v : Digit) (off : Nat) (h : off + 4 ≤ w) :
    getField (setField word v off) off = v := by
  apply BitVec.eq_of_getLsbD_eq
  intro j hj
  rw [getLsbD_getField, getLsbD_setField _ _ _ _ h, if_pos (by omega)]
  simp only [hj, decide_true, Bool.true_and, Nat.add_sub_cancel_left]

theorem getField_setField_apart {w : Nat} (word : BitVec w) (v : Digit) (off off' : Nat) (h : off + 4 ≤ w)
    (apart : off' + 4 ≤ off ∨ off + 4 ≤ off') : getField (setField word v off) off' = getField word off' := by
  apply BitVec.eq_of_getLsbD_eq
  intro j hj
  rw [getLsbD_getField, getLsbD_getField, getLsbD_setField _ _ _ _ h, if_neg (by omega)]

theorem setField_setField_same {w : Nat} (word : BitVec w) (u v : Digit) (off : Nat) (h : off + 4 ≤ w) :
    setField (setField word u off) v off = setField word v off := by
  apply BitVec.eq_of_getLsbD_eq
  intro j _
  simp only [getLsbD_setField _ _ _ _ h]
  split <;> rfl

theorem setField_comm {w : Nat} (word : BitVec w) (u v : Digit) (off off' : Nat) (h : off + 4 ≤ w) (h' : off' + 4 ≤ w)
    (apart : off' + 4 ≤ off ∨ off + 4 ≤ off') :
    setField (setField word u off) v off' = setField (setField word v off') u off := by
  apply BitVec.eq_of_getLsbD_eq
  intro j _
  simp only [getLsbD_setField _ _ _ _ h, getLsbD_setField _ _ _ _ h']
  split <;> split <;> first | rfl | omega

/-- The field as the slice of the word's number (R41). -/
theorem getField_eq_ofNat {w : Nat} (word : BitVec w) (off : Nat) :
    getField word off = BitVec.ofNat 4 (word.toNat / 2 ^ off) := by
  apply BitVec.eq_of_getLsbD_eq
  intro j hj
  rw [getLsbD_getField, BitVec.getLsbD_ofNat, ← Nat.shiftRight_eq_div_pow, Nat.testBit_shiftRight]
  rfl

/-- Writing a field replaces one slice of the word's number (R83). -/
theorem setField_toNat {w : Nat} (word : BitVec w) (d : Digit) (off : Nat) (h : off + 4 ≤ w) :
    (setField word d off).toNat =
      word.toNat / 2 ^ (off + 4) * 2 ^ (off + 4) + d.toNat * 2 ^ off + word.toNat % 2 ^ off := by
  have hd := d.isLt
  have hlo : word.toNat % 2 ^ off < 2 ^ off := Nat.mod_lt _ (Nat.two_pow_pos _)
  have hmid : d.toNat * 2 ^ off + word.toNat % 2 ^ off < 2 ^ (off + 4) := by
    have := Nat.mul_le_mul_right (2 ^ off) (show d.toNat + 1 ≤ 16 by omega)
    rw [Nat.add_mul] at this
    rw [Nat.pow_add]
    omega
  apply Nat.eq_of_testBit_eq
  intro j
  rw [BitVec.testBit_toNat, getLsbD_setField _ _ _ _ h]
  rw [Nat.add_assoc, Nat.mul_comm, Nat.testBit_two_pow_mul_add _ hmid, Nat.mul_comm d.toNat]
  by_cases h1 : j < off + 4
  · rw [if_pos h1, Nat.testBit_two_pow_mul_add _ hlo]
    by_cases h2 : j < off
    · rw [if_neg (by omega), if_pos h2, Nat.testBit_mod_two_pow]
      simp [h2, BitVec.testBit_toNat]
    · rw [if_pos (by omega), if_neg h2, BitVec.testBit_toNat]
  · rw [if_neg (by omega), if_neg h1, ← Nat.shiftRight_eq_div_pow, Nat.testBit_shiftRight, BitVec.testBit_toNat]
    congr 1; omega

/-- A digit's field lies inside its word (R46). -/
theorem bitOffset_le {w : Nat} (h4 : 4 ≤ w) (i : Nat) : bitOffset (digitsPerWord w) i + 4 ≤ w := by
  unfold bitOffset digitsPerWord
  have := Nat.mod_lt i (show 0 < w / 4 by omega)
  omega

/-- Two digits of one word have fields apart (R42). -/
theorem bitOffset_apart {dpw i j : Nat} (hij : i ≠ j) (hk : wordIndex dpw i = wordIndex dpw j) :
    bitOffset dpw j + 4 ≤ bitOffset dpw i ∨ bitOffset dpw i + 4 ≤ bitOffset dpw j := by
  unfold bitOffset
  unfold wordIndex at hk
  have h1 := Nat.div_add_mod i dpw
  have h2 := Nat.div_add_mod j dpw
  rw [hk] at h1
  omega

namespace PackedDecimal

variable {w : Nat} (v : PackedDecimal w)

/-- Records with the same counts and the same words are the same. -/
theorem ext_memRead {u v : PackedDecimal w} (h1 : u.dc = v.dc) (h2 : u.wc = v.wc) (h3 : u.buf.length = v.buf.length)
    (h : ∀ k, k < u.buf.length → u.memRead k = v.memRead k) : u = v := by
  obtain ⟨a, b, l⟩ := u; obtain ⟨a', b', l'⟩ := v
  simp only at h1 h2 h3; subst h1 h2
  congr 1
  apply List.ext_getElem h3
  intro k k1 k2
  have := h k k1
  simpa [PackedDecimal.memRead, List.getD_eq_getElem?_getD, k1, k2] using this

/-- Every bit of a word belongs to a digit (R42), so words whose digits agree are the same. -/
theorem memRead_eq_of_getDigit (hw : w % 4 = 0) {u v : PackedDecimal w} (h : ∀ i, u.getDigit i = v.getDigit i) (k : Nat) :
    u.memRead k = v.memRead k := by
  apply BitVec.eq_of_getLsbD_eq
  intro j hj
  have hp : 0 < digitsPerWord w := by unfold digitsPerWord; omega
  have hlt : j / 4 < digitsPerWord w := by unfold digitsPerWord; omega
  have hd := h (j / 4 + digitsPerWord w * k)
  unfold getDigit wordIndex bitOffset at hd
  rw [Nat.add_mul_div_left _ _ hp, Nat.div_eq_of_lt hlt, Nat.add_mul_mod_self_left, Nat.mod_eq_of_lt hlt, Nat.zero_add] at hd
  have hb := congrArg (fun d => BitVec.getLsbD d (j % 4)) hd
  simp only [getLsbD_getField] at hb
  rw [show 4 * (j / 4) + j % 4 = j by omega] at hb
  simpa [show j % 4 < 4 by omega] using hb

@[simp] theorem setDigit_dc (d : Digit) (i : Nat) : (v.setDigit d i).dc = v.dc := rfl
@[simp] theorem setDigit_wc (d : Digit) (i : Nat) : (v.setDigit d i).wc = v.wc := rfl
@[simp] theorem setDigit_length (d : Digit) (i : Nat) : (v.setDigit d i).buf.length = v.buf.length := by
  simp [setDigit, memWrite]

/-- A word read after a word written: the written one where the indices agree, the old one elsewhere. -/
theorem memRead_memWrite (k k' : Nat) (word : BitVec w) (h : k < v.buf.length) :
    (v.memWrite k word).memRead k' = if k = k' then word else v.memRead k' := by
  unfold memRead memWrite
  simp only [List.getD_eq_getElem?_getD, List.getElem?_set]
  split <;> simp_all

/-- Word `k` after writing digit `i`: only the digit's own word can differ (R83). -/
theorem memRead_setDigit (d : Digit) (i k : Nat) (h : wordIndex (digitsPerWord w) i < v.buf.length) :
    (v.setDigit d i).memRead k =
      if wordIndex (digitsPerWord w) i = k then setField (v.memRead k) d (bitOffset (digitsPerWord w) i)
      else v.memRead k := by
  unfold setDigit
  rw [memRead_memWrite _ _ _ _ h]
  split
  · next e => rw [e]
  · rfl

/-- R91 (a): a digit written reads back. -/
theorem getDigit_setDigit_same (h4 : 4 ≤ w) (d : Digit) (i : Nat) (h : wordIndex (digitsPerWord w) i < v.buf.length) :
    (v.setDigit d i).getDigit i = d := by
  unfold getDigit
  rw [memRead_setDigit _ _ _ _ h, if_pos rfl, getField_setField_same _ _ _ (bitOffset_le h4 i)]

/-- R91 (b): every other digit stays. -/
theorem getDigit_setDigit_ne (h4 : 4 ≤ w) (d : Digit) {i j : Nat} (hij : i ≠ j)
    (h : wordIndex (digitsPerWord w) i < v.buf.length) : (v.setDigit d i).getDigit j = v.getDigit j := by
  unfold getDigit
  rw [memRead_setDigit _ _ _ _ h]
  split
  · next e => exact getField_setField_apart _ _ _ _ (bitOffset_le h4 i) (bitOffset_apart hij e)
  · rfl

/-- Both cases of reading a digit after a digit was written. -/
theorem getDigit_setDigit (h4 : 4 ≤ w) (d : Digit) (i j : Nat) (h : wordIndex (digitsPerWord w) i < v.buf.length) :
    (v.setDigit d i).getDigit j = if i = j then d else v.getDigit j := by
  split
  · next e => rw [← e, getDigit_setDigit_same v h4 d i h]
  · next e => exact getDigit_setDigit_ne v h4 d e h

/-- A coherent record holds every word that a digit index up to `dc` names. -/
theorem coherent_word (h4 : 4 ≤ w) (hc : v.coherent = true) {i : Nat} (hi : i ≤ v.dc.toNat) :
    wordIndex (digitsPerWord w) i < v.buf.length := by
  simp only [coherent, addressable, Bool.and_eq_true, decide_eq_true_eq] at hc
  rw [hc.1]
  unfold wordIndex
  have hp : 0 < digitsPerWord w := by unfold digitsPerWord; omega
  exact (Nat.div_lt_iff_lt_mul hp).mpr (Nat.lt_of_le_of_lt hi hc.2)

/-- An addressable index of a coherent record names a word it holds (R81). -/
theorem addressable_word (h4 : 4 ≤ w) (hc : v.coherent = true) {i : Nat} (hi : v.addressable i = true) :
    wordIndex (digitsPerWord w) i < v.buf.length := by
  simp only [coherent, addressable, Bool.and_eq_true, decide_eq_true_eq] at hc hi
  rw [hc.1]
  unfold wordIndex
  have hp : 0 < digitsPerWord w := by unfold digitsPerWord; omega
  exact (Nat.div_lt_iff_lt_mul hp).mpr hi

@[simp] theorem setDigit_coherent (d : Digit) (i : Nat) : (v.setDigit d i).coherent = v.coherent := by
  have same : (v.setDigit d i).addressable (v.setDigit d i).dc.toNat = v.addressable v.dc.toNat := rfl
  rw [Bool.eq_iff_iff]
  simp only [coherent, same, Bool.and_eq_true, decide_eq_true_eq, setDigit_length, setDigit_wc]

@[simp] theorem setDigit_addressable (d : Digit) (i j : Nat) : (v.setDigit d i).addressable j = v.addressable j := rfl

end PackedDecimal

end Sys2Proof.Machine
end

