-- ==== Sys2Proof/Laws/Ops.lean ====
section
/-! SUPPORT. For each shared operation, once, everything it can do. -/

namespace Sys2Proof.Machine

variable {s t : State}

/-! ### Reading and writing a value register -/

@[simp] theorem State.reg?_answer (e : Status) (d : BitVec s.cfg.accw) (r : RegNum) :
    (s.answer e d).reg? r = s.reg? r := rfl
@[simp] theorem State.reg?_setAcc (a : BitVec s.cfg.accw) (r : RegNum) : (s.setAcc a).reg? r = s.reg? r := rfl
@[simp] theorem State.reg?_drawn (n : Nat) (r : RegNum) : (s.drawn n).reg? r = s.reg? r := rfl
@[simp] theorem State.reg?_hostDone (l : List HostAction) (r : RegNum) : (s.hostDone l).reg? r = s.reg? r := rfl
@[simp] theorem State.reg?_deliver (r : RegNum) : s.deliver.reg? r = s.reg? r := rfl
@[simp] theorem State.value?_answer (e : Status) (d : BitVec s.cfg.accw) (r : RegNum) :
    (s.answer e d).value? r = s.value? r := rfl
@[simp] theorem State.value?_setAcc (a : BitVec s.cfg.accw) (r : RegNum) : (s.setAcc a).value? r = s.value? r := rfl
@[simp] theorem State.value?_drawn (n : Nat) (r : RegNum) : (s.drawn n).value? r = s.value? r := rfl
@[simp] theorem State.value?_deliver (r : RegNum) : s.deliver.value? r = s.value? r := rfl

/-- A register exists exactly when its number is below `NV` (R63). -/
theorem State.reg?_eq_none_iff (r : RegNum) : s.reg? r = none ↔ ¬ r.toNat < s.cfg.nv := by
  unfold State.reg?; simp

theorem State.value?_eq_some_iff (r : RegNum) (v : PackedDecimal s.cfg.w) :
    s.value? r = some v ↔ s.reg? r = some (some v) := by
  unfold State.value?; exact Option.join_eq_some_iff

theorem State.lt_of_reg? {r : RegNum} {v : Option (PackedDecimal s.cfg.w)} (h : s.reg? r = some v) :
    r.toNat < s.cfg.nv := by
  by_contra hn; rw [(State.reg?_eq_none_iff r).mpr hn] at h; cases h

/-- Reading after writing: the written record at that number, every other register as before (R21, R34). -/
theorem State.reg?_setReg (r r' : RegNum) (v : Option (PackedDecimal s.cfg.w)) :
    (s.setReg r v).reg? r' = if r = r' ∧ r.toNat < s.cfg.nv then some v else s.reg? r' := by
  unfold State.reg? State.setReg
  rw [Vector.getElem?_setIfInBounds]
  by_cases h : r = r'
  · subst h
    by_cases hn : r.toNat < s.cfg.nv
    · simp [hn]
    · simp [hn]
  · have : r.toNat ≠ r'.toNat := fun e => h (BitVec.eq_of_toNat_eq e)
    simp [h, this]

@[simp] theorem State.value?_setReg_same {r : RegNum} (v : Option (PackedDecimal s.cfg.w)) (h : r.toNat < s.cfg.nv) :
    (s.setReg r v).value? r = v := by
  unfold State.value?; rw [State.reg?_setReg, if_pos ⟨rfl, h⟩]; rfl

theorem State.value?_setReg_ne {r r' : RegNum} (v : Option (PackedDecimal s.cfg.w)) (h : r ≠ r') :
    (s.setReg r v).value? r' = s.value? r' := by
  unfold State.value?; rw [State.reg?_setReg, if_neg (fun c => h c.1)]

/-! ### The canonical form of memory -/

theorem Memory.wf_iff :
    Memory.wf s = true ↔ ∀ (r : Nat) (v : PackedDecimal s.cfg.w), s.regs[r]? = some (some v) → v.wf s.cfg = true := by
  unfold Memory.wf
  simp only [List.all_eq_true]
  constructor
  · intro h r v hr
    have hm : some v ∈ s.regs.toList := by
      rw [Vector.getElem?_eq_some_iff] at hr
      obtain ⟨hlt, he⟩ := hr
      rw [← he]; simp
    simpa using h _ hm
  · intro h o ho
    cases o with
    | none => rfl
    | some v =>
      obtain ⟨r, hr⟩ := List.mem_iff_getElem?.mp ho
      exact h r v (by simpa using hr)

theorem Memory.wf_of_reg? (h : Memory.wf s = true) {r : RegNum} {v : PackedDecimal s.cfg.w}
    (hr : s.reg? r = some (some v)) : v.wf s.cfg = true := Memory.wf_iff.mp h _ _ hr

/-- Writing a legal record, or clearing a register, keeps the canonical form. -/
theorem Memory.wf_setReg (h : Memory.wf s = true) (r : RegNum) (v : Option (PackedDecimal s.cfg.w))
    (hv : ∀ u, v = some u → u.wf s.cfg = true) : Memory.wf (s.setReg r v) = true := by
  rw [Memory.wf_iff] at h ⊢
  intro k (u : PackedDecimal s.cfg.w) hu
  replace hu : (s.regs.setIfInBounds r.toNat v)[k]? = some (some u) := hu
  rw [Vector.getElem?_setIfInBounds] at hu
  split at hu
  · split at hu
    · exact hv u (Option.some.inj hu)
    · cases hu
  · exact h k u hu

@[simp] theorem Memory.wf_answer (e : Status) (d : BitVec s.cfg.accw) : Memory.wf (s.answer e d) = Memory.wf s := rfl
@[simp] theorem Memory.wf_setAcc (a : BitVec s.cfg.accw) : Memory.wf (s.setAcc a) = Memory.wf s := rfl
@[simp] theorem Memory.wf_drawn (n : Nat) : Memory.wf (s.drawn n) = Memory.wf s := rfl
@[simp] theorem Memory.wf_hostDone (l : List HostAction) : Memory.wf (s.hostDone l) = Memory.wf s := rfl
@[simp] theorem Memory.wf_deliver : Memory.wf s.deliver = Memory.wf s := rfl

/-- After the reset input no register is valid, so memory lists nothing (R190). -/
theorem Memory.wf_resetInput : Memory.wf s.resetInput = true := by
  rw [Memory.wf_iff]
  intro r (v : PackedDecimal s.cfg.w) h
  replace h : (Vector.replicate s.cfg.nv (none : Option (PackedDecimal s.cfg.w)))[r]? = some (some v) := h
  rw [Vector.getElem?_replicate] at h
  split at h <;> cases h

theorem Memory.wf_reset : Memory.wf State.reset = true := by decide

theorem Config.dpw_pos {c : Config} (h : c.wf = true) : 0 < c.dpw := by
  simp only [Config.wf, Bool.and_eq_true, decide_eq_true_eq] at h
  unfold Config.dpw digitsPerWord
  omega

theorem Config.four_le {c : Config} (h : c.wf = true) : 4 ≤ c.w := by
  simp only [Config.wf, Bool.and_eq_true, decide_eq_true_eq] at h
  omega

/-- A legal record is coherent: the sign slot is addressable (R23). -/
theorem PackedDecimal.coherent_of_wf {c : Config} {v : PackedDecimal c.w} (hc : c.wf = true) (h : v.wf c = true) :
    v.coherent = true := by
  simp only [PackedDecimal.wf, Bool.and_eq_true, decide_eq_true_eq] at h
  simp only [PackedDecimal.coherent, PackedDecimal.addressable, Bool.and_eq_true, decide_eq_true_eq]
  refine ⟨h.2, ?_⟩
  rw [h.1.2]
  exact Nat.lt_mul_of_div_lt (Nat.lt_succ_self _) (Config.dpw_pos hc)

/-- Writing a digit keeps a record legal (R83). -/
theorem PackedDecimal.wf_setDigit {c : Config} {v : PackedDecimal c.w} (h : v.wf c = true) (d : Digit) (i : Nat) :
    (v.setDigit d i).wf c = true := by
  simp only [PackedDecimal.wf, Bool.and_eq_true, decide_eq_true_eq] at h ⊢
  simpa using h

/-- The record ALLOC makes is legal (R23, R100). -/
theorem PackedDecimal.wf_alloc (c : Config) (dc : Index) (draws : Nat) (h1 : 1 ≤ dc.toNat) (h2 : dc.toNat ≤ c.maxd) :
    PackedDecimal.wf c ⟨dc, dc.toNat / c.dpw + 1, fillWords c draws (dc.toNat / c.dpw + 1)⟩ = true := by
  have hl : (fillWords c draws (dc.toNat / c.dpw + 1)).length = dc.toNat / c.dpw + 1 := by
    unfold fillWords; split <;> simp
  simp [PackedDecimal.wf, h1, h2, hl]

/-! ### The response channel -/

/-- The codes 6 to 15 are never produced (R171). -/
theorem Status.code_le (e : Status) : e.code.toNat ≤ 5 := by cases e <;> decide

/-- Only OK has the code 0 (R171). -/
theorem Status.code_eq_zero_iff (e : Status) : e.code = 0 ↔ e = .ok := by cases e <;> decide

@[simp] theorem Response.onChannel_fst {accw : Nat} (a : Response accw) : a.onChannel.1 = a.status.code := rfl
@[simp] theorem Response.onChannel_snd {accw : Nat} (a : Response accw) : a.onChannel.2 = a.data := rfl

/-! ### The checks of a command -/

/-- `ifLegal` goes on, or answers ERR_ILLEGAL (R65 (c)). -/
theorem State.ifLegal_cases {rs : List RegNum} {k : Result} (h : s.ifLegal rs k = .next t) :
    (rs.all (RegNum.legal s.cfg.nv) = true ∧ k = .next t) ∨
      (rs.all (RegNum.legal s.cfg.nv) = false ∧ t = s.answer .errIllegal 0) := by
  unfold State.ifLegal at h
  split at h
  · next hl => exact .inl ⟨hl, h⟩
  · next hl => exact .inr ⟨by simpa using hl, by unfold State.raise at h; cases h; rfl⟩

theorem State.ifLegal_of {rs : List RegNum} {k : Result} (h : rs.all (RegNum.legal s.cfg.nv) = true) :
    s.ifLegal rs k = k := if_pos h

/-- `withValue` goes on with the value, or answers ERR_ILLEGAL or ERR_UNALLOC (R172). -/
theorem State.withValue_cases {r : RegNum} {k : PackedDecimal s.cfg.w → Result} (h : s.withValue r k = .next t) :
    (∃ v, s.reg? r = some (some v) ∧ k v = .next t) ∨
      (s.reg? r = none ∧ t = s.answer .errIllegal 0) ∨ (s.reg? r = some none ∧ t = s.answer .errUnalloc 0) := by
  unfold State.withValue at h
  split at h
  · next e => exact .inr (.inl ⟨e, by unfold State.raise at h; cases h; rfl⟩)
  · next e => exact .inr (.inr ⟨e, by unfold State.raise at h; cases h; rfl⟩)
  · next v e => exact .inl ⟨v, e, h⟩

theorem State.withValue_of {r : RegNum} {v : PackedDecimal s.cfg.w} (k : PackedDecimal s.cfg.w → Result)
    (h : s.reg? r = some (some v)) : s.withValue r k = k v := by
  unfold State.withValue; rw [h]

theorem State.withValue_none {r : RegNum} (k : PackedDecimal s.cfg.w → Result)
    (h : s.reg? r = some none) : s.withValue r k = s.raise .errUnalloc := by
  unfold State.withValue; rw [h]

theorem State.withDigits_cases {r : RegNum} {k : PackedDecimal s.cfg.w → Result} (h : s.withDigits r k = .next t) :
    (∃ v, s.reg? r = some (some v) ∧ v.coherent = true ∧ k v = .next t) ∨
      (s.reg? r = none ∧ t = s.answer .errIllegal 0) ∨ (s.reg? r = some none ∧ t = s.answer .errUnalloc 0) := by
  unfold State.withDigits at h
  rcases State.withValue_cases h with ⟨v, e, hk⟩ | h' | h'
  · split at hk
    · next hc => exact .inl ⟨v, e, hc, hk⟩
    · cases hk
  · exact .inr (.inl h')
  · exact .inr (.inr h')

theorem State.withDigits_of {r : RegNum} {v : PackedDecimal s.cfg.w} (k : PackedDecimal s.cfg.w → Result)
    (h : s.reg? r = some (some v)) (hc : v.coherent = true) : s.withDigits r k = k v := by
  unfold State.withDigits; rw [State.withValue_of _ h, if_pos hc]

theorem State.withDigits_none {r : RegNum} (k : PackedDecimal s.cfg.w → Result)
    (h : s.reg? r = some none) : s.withDigits r k = s.raise .errUnalloc := by
  unfold State.withDigits; exact State.withValue_none _ h

/-- The record of a valid register of a legal state. -/
theorem State.Inv.coherent (h : s.Inv) {r : RegNum} {v : PackedDecimal s.cfg.w} (hr : s.reg? r = some (some v)) :
    v.coherent = true := PackedDecimal.coherent_of_wf h.1 (Memory.wf_of_reg? h.2.1 hr)

end Sys2Proof.Machine
end

