-- ==== Sys2Proof/Laws/Accumulator.lean ====
section
/-! SUPPORT. The loop of CVT computes the magnitude modulo `2^ACCW` (spec/43_bcd_digit_accumulator.md R136, R138). -/

namespace Sys2Proof.Machine

/-- The digits `n-1 .. 0` accumulated onto `acc`. -/
theorem accumulate_eq {w accw : Nat} (h8 : 4 ≤ accw) (v : PackedDecimal w) (n : Nat) (acc : BitVec accw) :
    accumulate v n acc = BitVec.ofNat accw (acc.toNat * 10 ^ n + v.valUpTo n) := by
  induction n generalizing acc with
  | zero => simp [accumulate, PackedDecimal.valUpTo]
  | succ n ih =>
    rw [accumulate, ih]
    apply BitVec.eq_of_toNat_eq
    have hd : ((v.getDigit n).setWidth accw).toNat = (v.getDigit n).toNat := by
      rw [BitVec.toNat_setWidth]
      exact Nat.mod_eq_of_lt (Nat.lt_of_lt_of_le (v.getDigit n).isLt (Nat.pow_le_pow_right (by decide) h8))
    have hten : (10 : BitVec accw).toNat = 10 := by
      change (BitVec.ofNat accw 10).toNat = 10
      rw [BitVec.toNat_ofNat]
      exact Nat.mod_eq_of_lt (Nat.lt_of_lt_of_le (by decide : 10 < 2 ^ 4) (Nat.pow_le_pow_right (by decide) h8))
    rw [BitVec.toNat_ofNat, BitVec.toNat_ofNat, BitVec.toNat_add, BitVec.toNat_mul, hd, hten, PackedDecimal.valUpTo]
    have e : (acc.toNat * 10 ^ (n + 1) + (v.valUpTo n + (v.getDigit n).toNat * 10 ^ n)) =
        (10 * acc.toNat + (v.getDigit n).toNat) * 10 ^ n + v.valUpTo n := by ring
    rw [e]
    refine Nat.ModEq.add_right _ (Nat.ModEq.mul_right _ ?_)
    exact ((Nat.mod_modEq _ _).trans ((Nat.mod_modEq _ _).add_right _))

end Sys2Proof.Machine
end

