-- ==== Sys2Proof/Laws/Adder.lean ====
section
/-! SUPPORT. What the loop and the final-carry step of ADD do to every digit (spec/42_bcd_ripple_adder.md R126). -/

namespace Sys2Proof.Machine

variable {w : Nat}

/-- `c_i` of R126: the carry into position `i`, from the old digits of position `i - 1` alone. -/
def carryInto (self other : PackedDecimal w) : Nat → Nat
  | 0 => 0
  | i + 1 => carryOut (self.getDigit i) (other.getDigit i)

theorem carryOut_le (a b : Digit) : carryOut a b ≤ 3 := by
  unfold carryOut digitSum; omega

theorem carryInto_le (self other : PackedDecimal w) (i : Nat) : carryInto self other i ≤ 3 := by
  cases i with
  | zero => exact Nat.zero_le 3
  | succ i => exact carryOut_le _ _

/-- The stored digit is at most 12, so the 4-bit field loses nothing (R118). -/
theorem sumDigit_toNat (a b : Digit) {carry : Nat} (h : carry ≤ 3) :
    (sumDigit a b carry).toNat = digitSum a b % 10 + carry := by
  unfold sumDigit
  rw [BitVec.toNat_ofNat, Nat.mod_eq_of_lt]
  omega

theorem addLoop_succ (other : Option (PackedDecimal w)) (n : Nat) (self : PackedDecimal w) :
    addLoop other (n + 1) self = addStep other (addLoop other n self) n := by
  unfold addLoop
  rw [List.range_succ, List.foldl_append]
  rfl

/-- The loop keeps the counts and the number of words (R128). -/
theorem addLoop_frame (other : Option (PackedDecimal w)) (n : Nat) (self : PackedDecimal w) :
    (addLoop other n self).1.dc = self.dc ∧ (addLoop other n self).1.wc = self.wc ∧
      (addLoop other n self).1.buf.length = self.buf.length := by
  induction n with
  | zero => exact ⟨rfl, rfl, rfl⟩
  | succ n ih =>
    rw [addLoop_succ]
    unfold addStep
    exact ⟨ih.1, ih.2.1, by rw [PackedDecimal.setDigit_length]; exact ih.2.2⟩

/-- After `n` turns of the loop: digits below `n` are the sums of the OLD digits, the others as before, and the latch holds
the carry into position `n`. With `other = none` the old digits of self stand for other's (R124, R126). -/
theorem addLoop_spec (h4 : 4 ≤ w) (other : Option (PackedDecimal w)) (self : PackedDecimal w) (n : Nat)
    (hw : ∀ i < n, wordIndex (digitsPerWord w) i < self.buf.length) :
    (addLoop other n self).2 = carryInto self (other.getD self) n ∧
      ∀ i, (addLoop other n self).1.getDigit i =
        if i < n then sumDigit (self.getDigit i) ((other.getD self).getDigit i) (carryInto self (other.getD self) i)
        else self.getDigit i := by
  induction n with
  | zero => exact ⟨rfl, fun i => by simp [addLoop]⟩
  | succ n ih =>
    obtain ⟨ihc, ihd⟩ := ih fun i hi => hw i (by omega)
    have hn : (addLoop other n self).1.getDigit n = self.getDigit n := by rw [ihd n, if_neg (Nat.lt_irrefl n)]
    have hb : (other.getD (addLoop other n self).1).getDigit n = (other.getD self).getDigit n := by
      cases other with
      | none => exact hn
      | some b => rfl
    have hword : wordIndex (digitsPerWord w) n < (addLoop other n self).1.buf.length := by
      rw [(addLoop_frame other n self).2.2]; exact hw n (Nat.lt_succ_self n)
    rw [addLoop_succ]
    refine ⟨?_, fun i => ?_⟩
    · unfold addStep; simp only [hn, hb]; rfl
    · unfold addStep
      simp only [hn, hb, ihc]
      rw [PackedDecimal.getDigit_setDigit _ h4 _ _ _ hword, ihd i]
      by_cases e : n = i
      · subst e; simp
      · by_cases hi : i < n
        · simp [e, hi, show i < n + 1 by omega]
        · simp [e, hi, show ¬ i < n + 1 by omega]

/-- Everything the final-carry step can do (R119, R120). -/
theorem addFinalCarry_cases {mode : SetdOverflow} {n : Nat} {p : PackedDecimal w × Nat} {v : PackedDecimal w}
    (h : addFinalCarry mode n p = .ok v) :
    (p.2 ≠ 0 ∧ n < p.1.dc.toNat ∧ v = p.1.setDigit (BitVec.ofNat 4 (((p.1.getDigit n).toNat + p.2) % 16)) n) ∨
      (¬ (p.2 ≠ 0 ∧ n < p.1.dc.toNat) ∧ v = p.1) := by
  unfold addFinalCarry at h
  split at h
  · next hc =>
    simp only at h
    split at h
    · cases h
    · exact .inl ⟨hc.1, hc.2, by cases h; rfl⟩
  · next hc => exact .inr ⟨hc, by cases h; rfl⟩

/-- Under `setd_overflow = truncate` ADD always has a result (R123). -/
theorem addValue_truncate (self : PackedDecimal w) (other : Option (PackedDecimal w)) :
    ∃ v, addValue .truncate self other = .ok v := by
  unfold addValue addFinalCarry
  simp only [reduceCtorEq, and_false, if_false]
  split <;> exact ⟨_, rfl⟩

/-- ADD on the values, digit by digit (R126): the counts stay, digits below `n` are sums of old digits, digit `n` takes a
final carry that finds a spare slot, everything else stays. -/
theorem addValue_spec (h4 : 4 ≤ w) {mode : SetdOverflow} {self v : PackedDecimal w} {other : Option (PackedDecimal w)}
    (hc : self.coherent = true) (h : addValue mode self other = .ok v) :
    v.dc = self.dc ∧ v.wc = self.wc ∧ v.buf.length = self.buf.length ∧
      ∀ i, v.getDigit i =
        if i < min self.dc.toNat (other.getD self).dc.toNat then
          sumDigit (self.getDigit i) ((other.getD self).getDigit i) (carryInto self (other.getD self) i)
        else if i = min self.dc.toNat (other.getD self).dc.toNat ∧ i < self.dc.toNat then
          BitVec.ofNat 4 (((self.getDigit i).toNat + carryInto self (other.getD self) i) % 16)
        else self.getDigit i := by
  unfold addValue at h
  simp only at h
  have hn : min self.dc.toNat (other.getD self).dc.toNat ≤ self.dc.toNat := Nat.min_le_left _ _
  revert hn h
  generalize min self.dc.toNat (other.getD self).dc.toNat = n
  intro h hn
  have hword : ∀ i < n, wordIndex (digitsPerWord w) i < self.buf.length := fun i hi =>
    PackedDecimal.coherent_word self h4 hc (by omega)
  obtain ⟨hcarry, hdig⟩ := addLoop_spec h4 other self n hword
  obtain ⟨fdc, fwc, flen⟩ := addLoop_frame other n self
  rcases addFinalCarry_cases h with ⟨hnz, hlt, rfl⟩ | ⟨hno, rfl⟩
  · rw [fdc] at hlt
    refine ⟨fdc, fwc, by rw [PackedDecimal.setDigit_length, flen], fun i => ?_⟩
    have hwn : wordIndex (digitsPerWord w) n < (addLoop other n self).1.buf.length := by
      rw [flen]; exact PackedDecimal.coherent_word self h4 hc hn
    rw [PackedDecimal.getDigit_setDigit _ h4 _ _ _ hwn, hdig i, hdig n, hcarry]
    by_cases e : n = i
    · subst e; simp [hlt]
    · simp [e, show ¬ i = n from fun h => e h.symm]
  · refine ⟨fdc, fwc, flen, fun i => ?_⟩
    rw [hdig i]
    rw [fdc, hcarry] at hno
    by_cases hi : i < n
    · simp [hi]
    · by_cases e : i = n ∧ i < self.dc.toNat
      · obtain ⟨rfl, hlt⟩ := e
        have h0 : carryInto self (other.getD self) i = 0 := by
          by_contra h0; exact hno ⟨h0, hlt⟩
        simp [hlt, h0, Nat.mod_eq_of_lt (self.getDigit i).isLt]
      · simp [hi, e]

end Sys2Proof.Machine
end

