-- ==== Sys2Proof/Laws/Decode.lean ====
section
/-! SUPPORT. Words and fields: cutting and joining are inverse, and each is arithmetic on the word's number (R11, R61). -/

namespace Sys2Proof

theorem toNat_append_eq {n m : Nat} (x : BitVec n) (y : BitVec m) : (x ++ y).toNat = x.toNat * 2 ^ m + y.toNat := by
  rw [BitVec.toNat_append, ← Nat.shiftLeft_add_eq_or_of_lt y.isLt, Nat.shiftLeft_eq]

theorem wordOf_toNat (f : Fields) : (wordOf f).toNat =
    f.op.toNat * 2 ^ 28 + f.rd.toNat * 2 ^ 24 + f.rs.toNat * 2 ^ 20 + f.val.toNat * 2 ^ 16 + f.idx.toNat := by
  unfold wordOf
  simp only [toNat_append_eq]
  omega

theorem fieldsOf_op_toNat (word : CommandWord) : (fieldsOf word).op.toNat = word.toNat / 2 ^ 28 % 2 ^ 4 := by
  simp [fieldsOf, BitVec.extractLsb'_toNat, Nat.shiftRight_eq_div_pow]
theorem fieldsOf_rd_toNat (word : CommandWord) : (fieldsOf word).rd.toNat = word.toNat / 2 ^ 24 % 2 ^ 4 := by
  simp [fieldsOf, BitVec.extractLsb'_toNat, Nat.shiftRight_eq_div_pow]
theorem fieldsOf_rs_toNat (word : CommandWord) : (fieldsOf word).rs.toNat = word.toNat / 2 ^ 20 % 2 ^ 4 := by
  simp [fieldsOf, BitVec.extractLsb'_toNat, Nat.shiftRight_eq_div_pow]
theorem fieldsOf_val_toNat (word : CommandWord) : (fieldsOf word).val.toNat = word.toNat / 2 ^ 16 % 2 ^ 4 := by
  simp [fieldsOf, BitVec.extractLsb'_toNat, Nat.shiftRight_eq_div_pow]
theorem fieldsOf_idx_toNat (word : CommandWord) : (fieldsOf word).idx.toNat = word.toNat % 2 ^ 16 := by
  simp [fieldsOf, BitVec.extractLsb'_toNat]

theorem fields_ext {f g : Fields} (h1 : f.op.toNat = g.op.toNat) (h2 : f.rd.toNat = g.rd.toNat)
    (h3 : f.rs.toNat = g.rs.toNat) (h4 : f.val.toNat = g.val.toNat) (h5 : f.idx.toNat = g.idx.toNat) : f = g := by
  cases f; cases g
  congr 1 <;> apply BitVec.eq_of_toNat_eq <;> assumption

theorem fieldsOf_wordOf (f : Fields) : fieldsOf (wordOf f) = f := by
  have h1 := f.op.isLt
  have h2 := f.rd.isLt
  have h3 := f.rs.isLt
  have h4 := f.val.isLt
  have h5 := f.idx.isLt
  apply fields_ext
  · rw [fieldsOf_op_toNat, wordOf_toNat]; omega
  · rw [fieldsOf_rd_toNat, wordOf_toNat]; omega
  · rw [fieldsOf_rs_toNat, wordOf_toNat]; omega
  · rw [fieldsOf_val_toNat, wordOf_toNat]; omega
  · rw [fieldsOf_idx_toNat, wordOf_toNat]; omega

theorem wordOf_fieldsOf (word : CommandWord) : wordOf (fieldsOf word) = word := by
  apply BitVec.eq_of_toNat_eq
  have h := word.isLt
  rw [wordOf_toNat, fieldsOf_op_toNat, fieldsOf_rd_toNat, fieldsOf_rs_toNat, fieldsOf_val_toNat, fieldsOf_idx_toNat]
  omega

/-- `legalCommand` answers the command exactly when the unused fields are zero and its registers exist (R65). -/
theorem legalCommand_eq_ok {nv : Nat} {u : Bool} {i j : Instr} :
    legalCommand nv u i = .ok j ↔ u = true ∧ i.wf nv = true ∧ i = j := by
  unfold legalCommand
  cases u <;> cases h : i.wf nv <;> simp

end Sys2Proof
end

