-- ==== Sys2Proof/Laws/Exec.lean ====
section
/-! SUPPORT. Said once per command: every next state it can give. Each is an error response on the state as it was
(R174), or the command's own effect on a register the machine has and, where the command needs one, its value. -/

namespace Sys2Proof.Machine

variable {s t : State}

/-- The state after a command that ended in an error: only the response is written (R174). -/
def ErrorAnswer (s t : State) : Prop := ∃ e, e ≠ .ok ∧ t = s.answer e 0

theorem errorAnswer {e : Status} (h : e ≠ .ok) : ErrorAnswer s (s.answer e 0) := ⟨e, h, rfl⟩

theorem execAlloc_cases {rd : RegNum} {dc : Index} (h : execAlloc rd dc s = .next t) :
    (rd.toNat < s.cfg.nv ∧ 1 ≤ dc.toNat ∧ dc.toNat ≤ s.cfg.maxd ∧
      t = ((s.setReg rd (some ⟨dc, dc.toNat / s.cfg.dpw + 1,
        fillWords s.cfg s.draws (dc.toNat / s.cfg.dpw + 1)⟩)).drawn (dc.toNat / s.cfg.dpw + 1)).answer .ok 0) ∨
      ErrorAnswer s t := by
  unfold execAlloc at h
  rcases State.ifLegal_cases h with ⟨hl, h⟩ | ⟨-, rfl⟩
  · split at h
    · exact .inr ⟨.errInvalidArg, by decide, by unfold State.raise at h; cases h; rfl⟩
    · next h0 =>
      split at h
      · exact .inr ⟨.errCapacity, by decide, by unfold State.raise at h; cases h; rfl⟩
      · next h1 =>
        refine .inl ⟨by simpa [RegNum.legal] using hl, ?_, Nat.le_of_not_lt h1, ?_⟩
        · refine Nat.pos_of_ne_zero fun hz => h0 (BitVec.eq_of_toNat_eq hz)
        · unfold State.respond at h; cases h; rfl
  · exact .inr (errorAnswer (by decide))

theorem execFree_cases {rd : RegNum} (h : execFree rd s = .next t) :
    (∃ v, s.reg? rd = some (some v) ∧ t = (s.setReg rd none).answer .ok 0) ∨ ErrorAnswer s t := by
  unfold execFree at h
  rcases State.ifLegal_cases h with ⟨-, h⟩ | ⟨-, rfl⟩
  · rcases State.withValue_cases h with ⟨v, hv, h⟩ | ⟨-, rfl⟩ | ⟨-, rfl⟩
    · exact .inl ⟨v, hv, by unfold State.respond at h; cases h; rfl⟩
    · exact .inr (errorAnswer (by decide))
    · exact .inr (errorAnswer (by decide))
  · exact .inr (errorAnswer (by decide))

theorem execCopy_cases {rd rs : RegNum} (h : execCopy rd rs s = .next t) :
    (∃ v, s.reg? rs = some (some v) ∧ rd.toNat < s.cfg.nv ∧
      t = if rd = rs then s.answer .ok 0 else (s.setReg rd (some v)).answer .ok 0) ∨ ErrorAnswer s t := by
  unfold execCopy at h
  rcases State.ifLegal_cases h with ⟨hl, h⟩ | ⟨-, rfl⟩
  · rcases State.withValue_cases h with ⟨v, hv, h⟩ | ⟨-, rfl⟩ | ⟨-, rfl⟩
    · refine .inl ⟨v, hv, ?_, ?_⟩
      · simp [RegNum.legal] at hl; exact hl.1
      · split at h
        · next e => rw [if_pos e]; unfold State.respond at h; cases h; rfl
        · next e => rw [if_neg e]; unfold State.respond at h; cases h; rfl
    · exact .inr (errorAnswer (by decide))
    · exact .inr (errorAnswer (by decide))
  · exact .inr (errorAnswer (by decide))

theorem execSetd_cases {rd : RegNum} {idx : Index} {val : Digit} (h : execSetd rd idx val s = .next t) :
    (∃ v, s.reg? rd = some (some v) ∧ v.coherent = true ∧ v.addressable idx.toNat = true ∧
      t = (s.setReg rd (some (v.setDigit val idx.toNat))).answer .ok 0) ∨ ErrorAnswer s t := by
  unfold execSetd at h
  rcases State.ifLegal_cases h with ⟨-, h⟩ | ⟨-, rfl⟩
  · rcases State.withDigits_cases h with ⟨v, hv, hc, h⟩ | ⟨-, rfl⟩ | ⟨-, rfl⟩
    · split at h
      · next ha => exact .inl ⟨v, hv, hc, ha, by unfold State.respond at h; cases h; rfl⟩
      · exact .inr ⟨.errRange, by decide, by unfold State.raise at h; cases h; rfl⟩
    · exact .inr (errorAnswer (by decide))
    · exact .inr (errorAnswer (by decide))
  · exact .inr (errorAnswer (by decide))

theorem execGetd_cases {rd : RegNum} {idx : Index} (h : execGetd rd idx s = .next t) :
    (∃ v, s.reg? rd = some (some v) ∧ v.coherent = true ∧ v.addressable idx.toNat = true ∧
      t = s.answer .ok ((v.getDigit idx.toNat).setWidth s.cfg.accw)) ∨ ErrorAnswer s t := by
  unfold execGetd at h
  rcases State.ifLegal_cases h with ⟨-, h⟩ | ⟨-, rfl⟩
  · rcases State.withDigits_cases h with ⟨v, hv, hc, h⟩ | ⟨-, rfl⟩ | ⟨-, rfl⟩
    · split at h
      · next ha => exact .inl ⟨v, hv, hc, ha, by unfold State.respond at h; cases h; rfl⟩
      · exact .inr ⟨.errRange, by decide, by unfold State.raise at h; cases h; rfl⟩
    · exact .inr (errorAnswer (by decide))
    · exact .inr (errorAnswer (by decide))
  · exact .inr (errorAnswer (by decide))

theorem execSign_cases {rd : RegNum} (h : execSign rd s = .next t) :
    (∃ v, s.reg? rd = some (some v) ∧ v.coherent = true ∧
      t = s.answer .ok (v.sign.setWidth s.cfg.accw)) ∨ ErrorAnswer s t := by
  unfold execSign at h
  rcases State.ifLegal_cases h with ⟨-, h⟩ | ⟨-, rfl⟩
  · rcases State.withDigits_cases h with ⟨v, hv, hc, h⟩ | ⟨-, rfl⟩ | ⟨-, rfl⟩
    · exact .inl ⟨v, hv, hc, by unfold State.respond at h; cases h; rfl⟩
    · exact .inr (errorAnswer (by decide))
    · exact .inr (errorAnswer (by decide))
  · exact .inr (errorAnswer (by decide))

theorem execAdd_cases {rd rs : RegNum} (h : execAdd rd rs s = .next t) :
    (∃ a b v, s.reg? rd = some (some a) ∧ s.reg? rs = some (some b) ∧ a.coherent = true ∧ b.coherent = true ∧
      addValue s.cfg.setdOverflow a (if rd = rs then none else some b) = .ok v ∧
      t = (s.setReg rd (some v)).answer .ok 0) ∨ ErrorAnswer s t := by
  unfold execAdd at h
  rcases State.ifLegal_cases h with ⟨-, h⟩ | ⟨-, rfl⟩
  · rcases State.withDigits_cases h with ⟨a, ha, hca, h⟩ | ⟨-, rfl⟩ | ⟨-, rfl⟩
    · rcases State.withDigits_cases h with ⟨b, hb, hcb, h⟩ | ⟨-, rfl⟩ | ⟨-, rfl⟩
      · split at h
        · next v hv => exact .inl ⟨a, b, v, ha, hb, hca, hcb, hv, by unfold State.respond at h; cases h; rfl⟩
        · cases h
      · exact .inr (errorAnswer (by decide))
      · exact .inr (errorAnswer (by decide))
    · exact .inr (errorAnswer (by decide))
    · exact .inr (errorAnswer (by decide))
  · exact .inr (errorAnswer (by decide))

theorem execCvt_cases {rd : RegNum} (h : execCvt rd s = .next t) :
    (∃ v, s.reg? rd = some (some v) ∧ v.coherent = true ∧
      ¬ (s.cfg.accOverflow = .refuse ∧ v.overflows s.cfg.accw = true) ∧
      t = (s.setAcc (applySign v (accumulate v v.dc.toNat 0))).answer .ok
        (applySign v (accumulate v v.dc.toNat 0))) ∨ ErrorAnswer s t := by
  unfold execCvt at h
  rcases State.ifLegal_cases h with ⟨-, h⟩ | ⟨-, rfl⟩
  · rcases State.withDigits_cases h with ⟨v, hv, hc, h⟩ | ⟨-, rfl⟩ | ⟨-, rfl⟩
    · split at h
      · cases h
      · next ho => exact .inl ⟨v, hv, hc, ho, by unfold State.respond at h; cases h; rfl⟩
    · exact .inr (errorAnswer (by decide))
    · exact .inr (errorAnswer (by decide))
  · exact .inr (errorAnswer (by decide))

/-- Whatever a command does, it leaves the configuration, the host's actions and the responses taken as they were, puts a
response on the channel, and writes no register but its destination (R21, R34, R60). -/
theorem exec_frame {i : Instr} (h : exec i s = .next t) :
    (∃ (regs : Vector (Option (PackedDecimal s.cfg.w)) s.cfg.nv) (acc : BitVec s.cfg.accw)
      (a : Response s.cfg.accw) (n : Nat),
      t = { s with regs := regs, acc := acc, response := some a, draws := n } ∧
      ∀ r, i.dest ≠ some r → regs[r.toNat]? = s.regs[r.toNat]?) := by
  have keep : ∀ (rd r : RegNum) (v : Option (PackedDecimal s.cfg.w)), some rd ≠ some r →
      (s.regs.setIfInBounds rd.toNat v)[r.toNat]? = s.regs[r.toNat]? := by
    intro rd r v hne
    rw [Vector.getElem?_setIfInBounds, if_neg]
    exact fun e => hne (congrArg some (BitVec.eq_of_toNat_eq e))
  have err : ErrorAnswer s t → _ := fun ⟨e, _, ht⟩ =>
    (⟨s.regs, s.acc, ⟨e, 0⟩, s.draws, ht, fun _ _ => rfl⟩ : ∃ (regs : Vector (Option (PackedDecimal s.cfg.w)) s.cfg.nv)
      (acc : BitVec s.cfg.accw) (a : Response s.cfg.accw) (n : Nat),
      t = { s with regs := regs, acc := acc, response := some a, draws := n } ∧
      ∀ r, i.dest ≠ some r → regs[r.toNat]? = s.regs[r.toNat]?)
  cases i with
  | alloc rd dc =>
    rcases execAlloc_cases h with ⟨-, -, -, ht⟩ | he
    · exact ⟨_, _, _, _, ht, fun r hr => keep rd r _ hr⟩
    · exact err he
  | free rd =>
    rcases execFree_cases h with ⟨-, -, ht⟩ | he
    · exact ⟨_, _, _, _, ht, fun r hr => keep rd r _ hr⟩
    · exact err he
  | copy rd rs =>
    rcases execCopy_cases h with ⟨v, -, -, ht⟩ | he
    · split at ht
      · exact ⟨_, _, _, _, ht, fun r _ => rfl⟩
      · exact ⟨_, _, _, _, ht, fun r hr => keep rd r _ hr⟩
    · exact err he
  | setd rd idx val =>
    rcases execSetd_cases h with ⟨v, -, -, -, ht⟩ | he
    · exact ⟨_, _, _, _, ht, fun r hr => keep rd r _ hr⟩
    · exact err he
  | getd rd idx =>
    rcases execGetd_cases h with ⟨v, -, -, -, ht⟩ | he
    · exact ⟨_, _, _, _, ht, fun r _ => rfl⟩
    · exact err he
  | sign rd =>
    rcases execSign_cases h with ⟨v, -, -, ht⟩ | he
    · exact ⟨_, _, _, _, ht, fun r _ => rfl⟩
    · exact err he
  | add rd rs =>
    rcases execAdd_cases h with ⟨a, b, v, -, -, -, -, -, ht⟩ | he
    · exact ⟨_, _, _, _, ht, fun r hr => keep rd r _ hr⟩
    · exact err he
  | cvt rd =>
    rcases execCvt_cases h with ⟨v, -, -, -, ht⟩ | he
    · exact ⟨_, _, _, _, ht, fun r _ => rfl⟩
    · exact err he

/-- Everything a step can do: nothing, a reset, a delivery, or an accepted word run to its response. -/
theorem step_cases (h : step s = .next t) :
    t = s ∨ (∃ rest, s.host = .reset :: rest ∧ t = (s.hostDone rest).resetInput) ∨
      (∃ rest, s.host = .takeResponse :: rest ∧ s.response.isSome ∧ t = (s.hostDone rest).deliver) ∨
      ∃ word rest, s.host = .command word :: rest ∧ s.response = none ∧
        ((∃ i, decode s.cfg.nv word = .ok i ∧ exec i (s.hostDone rest) = .next t) ∨
          ((∃ why, decode s.cfg.nv word = .error why) ∧ t = (s.hostDone rest).answer .errIllegal 0)) := by
  unfold step at h
  split at h
  · cases h; exact .inl rfl
  · next rest e => cases h; exact .inr (.inl ⟨rest, e, rfl⟩)
  · next word rest e =>
    split at h
    · next hr =>
      refine .inr (.inr (.inr ⟨word, rest, e, by simpa using hr, ?_⟩))
      unfold State.runWord at h
      split at h
      · next i hi => exact .inl ⟨i, hi, h⟩
      · next why hw => exact .inr ⟨⟨why, hw⟩, by unfold State.raise at h; cases h; rfl⟩
    · cases h; exact .inl rfl
  · next rest e =>
    split at h
    · next hr => cases h; exact .inr (.inr (.inl ⟨rest, e, hr, rfl⟩))
    · cases h; exact .inl rfl

end Sys2Proof.Machine
end

