-- ==== Sys2Proof/Laws/HostProcedures.lean ====
section
/-! SUPPORT. How the host's sequences of commands compose (spec/44_host_procedures.md). -/

namespace Sys2Proof.Machine

/-- A command answered OK, then the rest from the state in which the host has taken the response. -/
theorem perform_cons {i : Instr} {rest : List Instr} {s t u : State} {n : Nat} {data : List Nat} (h : exec i s = .next t)
    (ha : t.answer? = some (.ok, n)) (hr : perform rest t.deliver = .done u data) :
    perform (i :: rest) s = .done u (n :: data) := by
  unfold perform
  rw [h]
  simp only
  unfold State.answer? at ha
  obtain ⟨⟨status, bits⟩, h1, h2⟩ := Option.map_eq_some_iff.mp ha
  rw [h1]
  simp only [Prod.mk.injEq] at h2 ⊢
  obtain ⟨rfl, rfl⟩ := h2
  simp [hr]

/-- Two sequences one after the other. -/
theorem perform_append {a b : List Instr} {s t u : State} {d e : List Nat} (h1 : perform a s = .done t d)
    (h2 : perform b t = .done u e) : perform (a ++ b) s = .done u (d ++ e) := by
  induction a generalizing s d with
  | nil => unfold perform at h1; cases h1; exact h2
  | cons i a ih =>
    unfold perform at h1
    split at h1
    · cases h1
    · cases h1
    · rename_i t' ht'
      rw [List.cons_append]
      unfold perform
      rw [ht']
      simp only
      split at h1
      · exact ih h1
      · split at h1
        · rename_i ok
          rw [if_pos ok]
          split at h1
          · rename_i u' d' hp
            cases h1
            rw [ih hp]
            rfl
          · rename_i hno; exact absurd h1 (hno _ _)
        · cases h1

end Sys2Proof.Machine
end

