-- ==== Sys2Proof/Laws/Observe.lean ====
section
/-! SUPPORT. What the readings of a state say about the record a register holds, and what updates leave of them. -/

namespace Sys2Proof.Machine

variable {s t : State}

/-- The slice of the word's number (R41) is what the unpacker reads (R82). -/
theorem State.digitAt_eq {r : RegNum} {v : PackedDecimal s.cfg.w} (h4 : 4 ≤ s.cfg.w) (hr : s.value? r = some v)
    (hc : v.coherent = true) (i : Nat) :
    s.digitAt r i = if v.addressable i = true then some (v.getDigit i) else none := by
  unfold State.digitAt State.wordAt
  rw [hr]
  have hp : 0 < digitsPerWord s.cfg.w := by unfold digitsPerWord; omega
  have hdpw : s.cfg.dpw = digitsPerWord s.cfg.w := rfl
  have ha : v.addressable i = true ↔ i / digitsPerWord s.cfg.w < v.wc := by
    simp only [PackedDecimal.addressable, decide_eq_true_eq]
    exact (Nat.div_lt_iff_lt_mul hp).symm
  by_cases h : i / digitsPerWord s.cfg.w < v.wc
  · have hl : i / digitsPerWord s.cfg.w < v.buf.length := by
      simp only [PackedDecimal.coherent, Bool.and_eq_true, decide_eq_true_eq] at hc
      rw [hc.1]; exact h
    rw [if_pos (ha.mpr h)]
    simp only [hdpw, Option.bind_some, if_pos h, List.getElem?_eq_getElem hl, Option.map_some]
    congr 1
    unfold PackedDecimal.getDigit PackedDecimal.memRead wordIndex bitOffset
    rw [getField_eq_ofNat, List.getD_eq_getElem?_getD, List.getElem?_eq_getElem hl]
    rfl
  · rw [if_neg (fun c => h (ha.mp c))]
    simp [hdpw, h]

theorem State.digitAt_none {r : RegNum} (hr : s.value? r = none) (i : Nat) : s.digitAt r i = none := by
  unfold State.digitAt State.wordAt; rw [hr]; rfl

/-- Two states of one configuration whose register `r` holds the same record read the same there. -/
theorem State.sameRegister_of {s : State} {regs : Vector (Option (PackedDecimal s.cfg.w)) s.cfg.nv}
    {acc : BitVec s.cfg.accw} {a : Option (Response s.cfg.accw)} {l : List (Response s.cfg.accw)} {host : List HostAction}
    {n : Nat} {r : RegNum} (h : regs[r.toNat]? = s.regs[r.toNat]?) :
    s.SameRegister ⟨s.cfg, regs, acc, a, l, host, n⟩ r := by
  have hv : (⟨s.cfg, regs, acc, a, l, host, n⟩ : State).value? r = s.value? r := by
    unfold State.value? State.reg?; exact congrArg Option.join h
  unfold State.SameRegister State.valid State.digitCount? State.wordCount? State.wordAt
  rw [hv]
  exact ⟨rfl, rfl, rfl, fun _ => rfl⟩

/-! ### What each reading says of the record -/

theorem State.exists_of_digitCount? {r : RegNum} {dc : Nat} (h : s.digitCount? r = some dc) :
    ∃ v, s.value? r = some v ∧ v.dc.toNat = dc := by
  unfold State.digitCount? at h; exact Option.map_eq_some_iff.mp h

theorem State.exists_of_wordCount? {r : RegNum} {wc : Nat} (h : s.wordCount? r = some wc) :
    ∃ v, s.value? r = some v ∧ v.wc = wc := by
  unfold State.wordCount? at h; exact Option.map_eq_some_iff.mp h

theorem State.exists_of_valid {r : RegNum} (h : s.valid r = true) : ∃ v, s.value? r = some v :=
  Option.isSome_iff_exists.mp h

/-- A register the machine has that holds no value (R24). -/
theorem State.reg?_of_not_valid {r : RegNum} (hr : r.toNat < s.cfg.nv) (h : s.valid r = false) : s.reg? r = some none := by
  unfold State.valid State.value? at h
  cases e : s.reg? r with
  | none => exact absurd hr ((State.reg?_eq_none_iff r).mp e)
  | some o =>
    cases o with
    | none => rfl
    | some v => rw [e] at h; cases h

/-- A command that names a register the machine does not have is answered ERR_ILLEGAL (R65 (c)). -/
theorem State.ifLegal_illegal {rs : List RegNum} {k : Result} (h : ∃ r ∈ rs, s.cfg.nv ≤ r.toNat) :
    s.ifLegal rs k = .next (s.answer .errIllegal 0) := by
  unfold State.ifLegal
  rw [if_neg]
  · rfl
  · simpa [RegNum.legal] using h

/-- In a legal state the digits up to the sign slot are there (R23). -/
theorem State.Inv.addressable (h : s.Inv) {r : RegNum} {v : PackedDecimal s.cfg.w} (hv : s.value? r = some v) {i : Nat}
    (hi : i ≤ v.dc.toNat) : v.addressable i = true := by
  have hc := h.coherent ((State.value?_eq_some_iff r v).mp hv)
  simp only [PackedDecimal.coherent, PackedDecimal.addressable, Bool.and_eq_true, decide_eq_true_eq] at hc ⊢
  omega

theorem State.Inv.digitAt_eq (h : s.Inv) {r : RegNum} {v : PackedDecimal s.cfg.w} (hv : s.value? r = some v) {i : Nat}
    (hi : i ≤ v.dc.toNat) : s.digitAt r i = some (v.getDigit i) := by
  rw [State.digitAt_eq (Config.four_le h.1) hv (h.coherent ((State.value?_eq_some_iff r v).mp hv)),
    if_pos (h.addressable hv hi)]

theorem State.Inv.digitNat_eq (h : s.Inv) {r : RegNum} {v : PackedDecimal s.cfg.w} (hv : s.value? r = some v) {i : Nat}
    (hi : i ≤ v.dc.toNat) : s.digitNat r i = (v.getDigit i).toNat := by
  unfold State.digitNat; rw [h.digitAt_eq hv hi]; rfl

/-- Writing one register and answering leaves every other register the same (R21). -/
theorem State.sameRegister_setReg {r rd : RegNum} {v : Option (PackedDecimal s.cfg.w)} {n : Nat} {e : Status}
    {d : BitVec s.cfg.accw} (h : r ≠ rd) : s.SameRegister (((s.setReg rd v).drawn n).answer e d) r := by
  apply State.sameRegister_of
  rw [Vector.getElem?_setIfInBounds, if_neg]
  exact fun c => h (BitVec.eq_of_toNat_eq c).symm

end Sys2Proof.Machine
end

