-- ==== Sys2Proof/Laws/PerInstr.lean ====
section
/-! SUPPORT. One statement about every command as syntax: its word agrees with its row of the opcode map
(spec/30_encoding.md R64), `w & mask = match`. -/

namespace Sys2Proof.Laws.EncodingRow

/-- The word of the command, masked by the row's `mask`, is the row's `match` (R64). -/
def Statement (i : Instr) : Prop := encode i &&& i.maskWord = i.matchWord

theorem append_and_append {n m : Nat} (a b : BitVec n) (c d : BitVec m) :
    (a ++ c) &&& (b ++ d) = (a &&& b) ++ (c &&& d) := by
  apply BitVec.eq_of_getLsbD_eq
  intro i _
  simp only [BitVec.getLsbD_and, BitVec.getLsbD_append]
  split <;> rfl

/-- Masking a word masks each of its fields. -/
theorem wordOf_and_wordOf (f g : Fields) : wordOf f &&& wordOf g =
    wordOf ⟨f.op &&& g.op, f.rd &&& g.rd, f.rs &&& g.rs, f.val &&& g.val, f.idx &&& g.idx⟩ := by
  unfold wordOf
  rw [append_and_append, append_and_append, append_and_append, append_and_append]

/-- The masked fields of a command are its row's `match` fields, so its word agrees with the row. -/
theorem statement_of {i : Instr} (mask row : Fields) (hmask : i.maskWord = wordOf mask) (hrow : i.matchWord = wordOf row)
    (h : (⟨i.fields.op &&& mask.op, i.fields.rd &&& mask.rd, i.fields.rs &&& mask.rs, i.fields.val &&& mask.val,
      i.fields.idx &&& mask.idx⟩ : Fields) = row) : Statement i := by
  unfold Statement encode
  rw [hmask, hrow, wordOf_and_wordOf, h]

theorem alloc (rd : RegNum) (dc : Index) : Statement (.alloc rd dc) :=
  statement_of ⟨15, 0, 15, 15, 0⟩ ⟨1, 0, 0, 0, 0⟩ rfl rfl (by simp [Instr.fields])
theorem free (rd : RegNum) : Statement (.free rd) :=
  statement_of ⟨15, 0, 15, 15, 0xFFFF⟩ ⟨2, 0, 0, 0, 0⟩ rfl rfl (by simp [Instr.fields])
theorem copy (rd rs : RegNum) : Statement (.copy rd rs) :=
  statement_of ⟨15, 0, 0, 15, 0xFFFF⟩ ⟨3, 0, 0, 0, 0⟩ rfl rfl (by simp [Instr.fields])
theorem setd (rd : RegNum) (idx : Index) (val : Digit) : Statement (.setd rd idx val) :=
  statement_of ⟨15, 0, 15, 0, 0⟩ ⟨4, 0, 0, 0, 0⟩ rfl rfl (by simp [Instr.fields])
theorem getd (rd : RegNum) (idx : Index) : Statement (.getd rd idx) :=
  statement_of ⟨15, 0, 15, 15, 0⟩ ⟨5, 0, 0, 0, 0⟩ rfl rfl (by simp [Instr.fields])
theorem sign (rd : RegNum) : Statement (.sign rd) :=
  statement_of ⟨15, 0, 15, 15, 0xFFFF⟩ ⟨6, 0, 0, 0, 0⟩ rfl rfl (by simp [Instr.fields])
theorem add (rd rs : RegNum) : Statement (.add rd rs) :=
  statement_of ⟨15, 0, 0, 15, 0xFFFF⟩ ⟨7, 0, 0, 0, 0⟩ rfl rfl (by simp [Instr.fields])
theorem cvt (rd : RegNum) : Statement (.cvt rd) :=
  statement_of ⟨15, 0, 15, 15, 0xFFFF⟩ ⟨8, 0, 0, 0, 0⟩ rfl rfl (by simp [Instr.fields])

end Sys2Proof.Laws.EncodingRow
end

