-- ==== Sys2Proof/Tests/Slice0.lean ====
section
/-! SUPPORT. Tests of the model and witnesses for the statements. Expected results are those of spec/95_test_vectors.md
and of the examples in the rules; each test names its source. -/

namespace Sys2Proof.Tests

open Sys2Proof Sys2Proof.Machine Sys2Proof.Spec

/-! ### Helpers -/

/-- The parameters of the vectors: the defaults with `alloc_fill = zero`. -/
def vectorConfig : Config := { Config.default with allocFill := .zero }

/-- The same, declining where the model may decline. -/
def refusingConfig : Config := { vectorConfig with accOverflow := .refuse, setdOverflow := .refuse }

/-- A value of `dc` digits in the given words. -/
def value (dc : Index) (words : List (BitVec 32)) : Option (PackedDecimal 32) := some ⟨dc, words.length, words⟩

/-- The machine idle, with these four registers. -/
def holding (a b : Option (PackedDecimal 32)) : State := ⟨vectorConfig, #v[a, b, none, none], 0, none, [], [], 0⟩

def refusing (a b : Option (PackedDecimal 32)) : State := ⟨refusingConfig, #v[a, b, none, none], 0, none, [], [], 0⟩

/-- The next state, if there is one. -/
def next? : Result → Option State
  | .next t => some t
  | .fault _ => none
  | .refused _ => none

def after (i : Instr) (s : State) : Option State := next? (exec i s)

/-- Status and data of the response to a command. -/
def answerTo (i : Instr) (s : State) : Option (Status × Nat) := (after i s).bind State.answer?

/-- Word `k` of register `r` after a command. -/
def wordAfter (i : Instr) (s : State) (r : RegNum) (k : Nat) : Option Nat := (after i s).bind fun t => t.wordAt r k

/-- "123" in V0 and "45" in V1, the operands of S1. -/
def s1 : State := holding (value 3 [0x123]) (value 2 [0x45])

/-! ### Well-formedness: each check of `Instr.wf` refuses an ill-formed term (R63, R65 (c), NV = 4) -/

theorem test_wf_all_legal : (Instr.alloc 3 0).wf 4 = true ∧ (Instr.copy 0 3).wf 4 = true ∧ (Instr.setd 3 65535 15).wf 4 = true := by
  decide
theorem test_wf_alloc_rd : (Instr.alloc 4 1).wf 4 = false := by decide
theorem test_wf_free_rd : (Instr.free 15).wf 4 = false := by decide
theorem test_wf_copy_rd : (Instr.copy 4 0).wf 4 = false := by decide
theorem test_wf_copy_rs : (Instr.copy 0 4).wf 4 = false := by decide
theorem test_wf_setd_rd : (Instr.setd 4 0 0).wf 4 = false := by decide
theorem test_wf_getd_rd : (Instr.getd 4 0).wf 4 = false := by decide
theorem test_wf_sign_rd : (Instr.sign 4).wf 4 = false := by decide
theorem test_wf_add_rd : (Instr.add 4 0).wf 4 = false := by decide
theorem test_wf_add_rs : (Instr.add 0 4).wf 4 = false := by decide
theorem test_wf_cvt_rd : (Instr.cvt 4).wf 4 = false := by decide

/-! ### Decoding: words written out by field, vector E1 -/

-- op 0001, rd 0011, rs 0000, val 0000, idx 0000 0000 0011 1111
theorem test_decode_alloc : decode 4 0b0001_0011_0000_0000_0000000000111111 = .ok (.alloc 3 63) := by rfl
-- op 0010, rd 0001
theorem test_decode_free : decode 4 0b0010_0001_0000_0000_0000000000000000 = .ok (.free 1) := by rfl
-- op 0011, rd 0000, rs 0011
theorem test_decode_copy : decode 4 0b0011_0000_0011_0000_0000000000000000 = .ok (.copy 0 3) := by rfl
-- op 0100, rd 0010, val 1001, idx 17
theorem test_decode_setd : decode 4 0b0100_0010_0000_1001_0000000000010001 = .ok (.setd 2 17 9) := by rfl
-- op 0101, rd 0001, idx 62
theorem test_decode_getd : decode 4 0b0101_0001_0000_0000_0000000000111110 = .ok (.getd 1 62) := by rfl
-- op 0110, rd 0011
theorem test_decode_sign : decode 4 0b0110_0011_0000_0000_0000000000000000 = .ok (.sign 3) := by rfl
-- op 0111, rd 0000, rs 0001
theorem test_decode_add : decode 4 0b0111_0000_0001_0000_0000000000000000 = .ok (.add 0 1) := by rfl
-- op 1000, rd 0010
theorem test_decode_cvt : decode 4 0b1000_0010_0000_0000_0000000000000000 = .ok (.cvt 2) := by rfl

/-- Vector E2, ground (a): a reserved operation code. -/
theorem test_decode_reserved : decode 4 0x00000000 = .error .reservedOp ∧ decode 4 0x90000000 = .error .reservedOp ∧
    decode 4 0xFFFFFFFF = .error .reservedOp := ⟨rfl, rfl, rfl⟩
/-- Vector E2, ground (b): an unused field is nonzero. -/
theorem test_decode_unused : decode 4 0x70110000 = .error .unusedFieldNonzero ∧ decode 4 0x20100000 = .error .unusedFieldNonzero ∧
    decode 4 0x80000001 = .error .unusedFieldNonzero ∧ decode 4 0x10010003 = .error .unusedFieldNonzero ∧
    decode 4 0x50100000 = .error .unusedFieldNonzero ∧ decode 4 0x40100000 = .error .unusedFieldNonzero :=
  ⟨rfl, rfl, rfl, rfl, rfl, rfl⟩
/-- Vector E2, ground (c), and its last sentence: with `NV = 16` these words are legal. -/
theorem test_decode_register : decode 4 0x64000000 = .error .noSuchRegister ∧ decode 4 0x70400000 = .error .noSuchRegister ∧
    decode 16 0x64000000 = .ok (.sign 4) ∧ decode 16 0x70400000 = .ok (.add 0 4) := ⟨rfl, rfl, rfl, rfl⟩

/-- Program P1, command 10, as the table numbers its bits. -/
theorem test_decodeTableWord : decodeTableWord 32 0x70100000 = some (.add 0 1) ∧ decodeTableWord 32 0 = none := ⟨rfl, rfl⟩

/-- Program P2, command 1, in the first step after reset: the response is OK, 0. -/
theorem test_first_step_runs : ((next? (step (State.reset.withFetchWord 32 0x10000001))).bind State.answer?) = some (.ok, 0) := by
  rfl

/-! ### Commands -/

/-- M1: `dc` 7, 8, 63 give 1, 2, 8 words. -/
theorem test_alloc_wordCount : (after (.alloc 0 7) s1).bind (·.wordCount? 0) = some 1 ∧
    (after (.alloc 0 8) s1).bind (·.wordCount? 0) = some 2 ∧ (after (.alloc 0 63) s1).bind (·.wordCount? 0) = some 8 := by decide
/-- M2: the two refusals. -/
theorem test_alloc_errors : answerTo (.alloc 0 0) s1 = some (.errInvalidArg, 0) ∧
    answerTo (.alloc 0 64) s1 = some (.errCapacity, 0) ∧ answerTo (.alloc 0 65535) s1 = some (.errCapacity, 0) := by decide

/-- M5. -/
theorem test_free : (after (.free 1) s1).map (·.valid 1) = some false ∧ answerTo (.free 3) s1 = some (.errUnalloc, 0) := by decide

/-- M4: all words are copied whole. -/
theorem test_copy : let s := holding (value 10 [0x34567890, 0x112]) none
    wordAfter (.copy 1 0) s 1 0 = some 0x34567890 ∧ wordAfter (.copy 1 0) s 1 1 = some 0x112 ∧
      (after (.copy 1 0) s).bind (·.digitCount? 1) = some 10 := by decide
/-- M4 and program P6, command 13: an invalid source is an error, also onto itself. -/
theorem test_copy_errors : answerTo (.copy 0 2) s1 = some (.errUnalloc, 0) ∧ answerTo (.copy 2 2) s1 = some (.errUnalloc, 0) := by
  decide

/-- F5. -/
theorem test_setd_field : wordAfter (.setd 0 3 0) (holding (value 3 [0xFFFFFFFF]) none) 0 0 = some 0xFFFF0FFF ∧
    wordAfter (.setd 0 7 10) (holding (value 3 [0x12345678]) none) 0 0 = some 0xA2345678 := by decide
/-- R86, its example. -/
theorem test_setd_example : wordAfter (.setd 0 1 9) s1 0 0 = some 0x193 ∧ answerTo (.setd 0 8 9) s1 = some (.errRange, 0) := by
  decide

/-- F4. -/
theorem test_getd : let s := holding (value 10 [0x34567890, 0x112]) none
    answerTo (.getd 0 7) s = some (.ok, 3) ∧ answerTo (.getd 0 8) s = some (.ok, 2) ∧
      answerTo (.getd 0 16) s = some (.errRange, 0) := by decide
/-- E3: validity is tested before range. -/
theorem test_getd_priority : answerTo (.getd 2 60000) s1 = some (.errUnalloc, 0) := by decide

/-- F7: the sign slot in the second word, and in the first. -/
theorem test_sign : answerTo (.sign 0) (holding (value 8 [0x87654321, 1]) none) = some (.ok, 1) ∧
    answerTo (.sign 0) (holding (value 7 [0x11234567]) none) = some (.ok, 1) := by decide

/-- A1, A6, A13a: the document's example, the quirk, and the truncated spare slot. -/
theorem test_add : wordAfter (.add 0 1) s1 0 0 = some 0x168 ∧
    wordAfter (.add 0 1) (holding (value 2 [0x99]) (value 2 [0x09])) 0 0 = some 0xA8 ∧
    wordAfter (.add 0 1) (holding (value 2 [0xFF]) (value 1 [0x0F])) 0 0 = some 0x20 := by decide
/-- A2, A11a, A12: a dropped carry, an ignored sign, the same register twice. -/
theorem test_add_silent : wordAfter (.add 0 1) (holding (value 1 [0x5]) (value 3 [0x999])) 0 0 = some 0x4 ∧
    wordAfter (.add 0 1) (holding (value 1 [0x17]) (value 1 [0x3])) 0 0 = some 0x10 ∧
    wordAfter (.add 0 0) (holding (value 2 [0x58]) none) 0 0 = some 0x16 := by decide

/-- C4, C7, C12. -/
theorem test_cvt : answerTo (.cvt 0) (holding (value 3 [0x1305]) none) = some (.ok, 0xFFFFFECF) ∧
    answerTo (.cvt 0) (holding (value 10 [0x47483648, 0x21]) none) = some (.ok, 0x80000000) ∧
    answerTo (.cvt 0) (holding (value 2 [0xA8]) none) = some (.ok, 108) := by decide
/-- C7 under `refuse`; C8 fits. -/
theorem test_cvt_refuse : exec (.cvt 0) (refusing (value 10 [0x47483648, 0x21]) none) = .refused .accumulatorOverflow ∧
    answerTo (.cvt 0) (refusing (value 10 [0x47483648, 0x121]) none) = some (.ok, 0x80000000) :=
  ⟨by rfl, by decide⟩

/-! ### Host procedures (H1 to H6, S3) and assembler text (R69) -/

theorem test_countDecimalDigits : countDecimalDigits 0 = 1 ∧ countDecimalDigits 99 = 2 ∧ countDecimalDigits 100 = 3 := by decide
theorem test_newi : newi 32 0 (-305) = .ok [.alloc 0 3, .setd 0 0 5, .setd 0 1 0, .setd 0 2 3, .setd 0 3 1] := by rfl
theorem test_news : news 1 (some ['4', '5']) = .ok [.alloc 1 2, .setd 1 0 5, .setd 1 1 4, .setd 1 2 0] := by rfl
theorem test_news_refuses : news 0 (some ['1', '2', 'a', '3']) = .error .invalidArgument ∧
    news 0 (some ['-']) = .error .invalidArgument ∧ news 0 (some ['-', '-', '5']) = .error .invalidArgument := ⟨rfl, rfl, rfl⟩
theorem test_render : render 0 3 (holding (value 3 [0x1305]) none) = some ['-', '3', '0', '5'] ∧
    render 0 2 (holding (value 2 [0xA0]) none) = none := by decide
/-- H5: 64 digits parse, and ALLOC answers ERR_CAPACITY. -/
theorem test_news_capacity : ((news 0 (some (List.replicate 64 '1'))).map fun l => l.head?) = .ok (some (.alloc 0 64)) := by rfl
theorem test_readLine : readLine ['S', 'E', 'T', 'D', ' ', 'V', '1', ',', ' ', '0', 'x', 'A', ',', '4', ' ', ';', 'c'] =
    some (some (.setd 1 10 4)) := by rfl

/-! ### Witnesses: states and operands that meet the hypotheses of each statement, for each clause -/

/-- `s` with the host about to do `l`. -/
def facing (l : List HostAction) (s : State) : State := { s with host := l }

/-- `s` with a response pending. -/
def pending (s : State) : State := s.answer .ok 1

theorem test_inv_s1 : s1.Inv := by unfold State.Inv; decide
theorem test_inv_refusing : (refusing (value 2 [0xF5]) (value 1 [0x05])).Inv := by unfold State.Inv; decide

theorem test_witness_DecodeOfEncodeIsIdentity : (Instr.add 3 0).wf 4 = true := by decide
theorem test_witness_EncodeOfDecodeIsIdentity : decode 4 0x70100000 = .ok (.add 0 1) := by rfl
theorem test_witness_IllegalWordsAreAnsweredIllegal :
    (facing [.command 0x64000000] s1).host = .command 0x64000000 :: [] ∧ s1.response = none ∧
      IllegalWord s1.cfg.nv 0x64000000 ∧ IllegalWord s1.cfg.nv 0x70100001 ∧ IllegalWord s1.cfg.nv 0x90000000 ∧
      ¬ IllegalWord s1.cfg.nv 0x63000000 :=
  ⟨rfl, rfl, by dsimp only [IllegalWord]; decide, by dsimp only [IllegalWord]; decide, by dsimp only [IllegalWord]; decide,
    by dsimp only [IllegalWord]; decide⟩

theorem test_witness_DigitIndexNamesWordAndOffset : Config.default.wf = true := by decide
theorem test_witness_DigitIsSliceOfItsWord : let v : PackedDecimal 32 := ⟨10, 2, [0x34567890, 0x112]⟩
    Config.default.wf = true ∧ v.coherent = true ∧ v.addressable 15 = true ∧ v.addressable 16 = false := by decide
theorem test_witness_FieldWriteLaws : let v : PackedDecimal 32 := ⟨10, 2, [0x34567890, 0x112]⟩
    v.coherent = true ∧ v.addressable 7 = true ∧ v.addressable 8 = true ∧ (s1.value? 0).isSome ∧ (1 : RegNum) ≠ 0 ∧
      (after (.getd 0 7) s1).isSome := by decide
theorem test_witness_GetdReadsOneDigit : s1.cfg.nv ≤ (4 : RegNum).toNat ∧ (3 : RegNum).toNat < s1.cfg.nv ∧ s1.valid 3 = false ∧
    s1.wordCount? 0 = some 1 ∧ 1 * s1.cfg.dpw ≤ (8 : Index).toNat ∧ (7 : Index).toNat < 1 * s1.cfg.dpw := by decide
theorem test_witness_SetdWritesOneDigit : s1.cfg.nv ≤ (15 : RegNum).toNat ∧ (2 : RegNum).toNat < s1.cfg.nv ∧
    s1.valid 2 = false ∧ s1.wordCount? 1 = some 1 ∧ 1 * s1.cfg.dpw ≤ (8 : Index).toNat ∧ (7 : Index).toNat < 1 * s1.cfg.dpw := by
  decide
theorem test_witness_SignReadsSignSlot : s1.cfg.nv ≤ (4 : RegNum).toNat ∧ (3 : RegNum).toNat < s1.cfg.nv ∧ s1.valid 3 = false ∧
    s1.digitCount? 0 = some 3 := by decide

theorem test_witness_AllocMakesFreshValue : s1.cfg.nv ≤ (4 : RegNum).toNat ∧ (3 : RegNum).toNat < s1.cfg.nv ∧
    (0 : Index).toNat = 0 ∧ s1.cfg.maxd < (64 : Index).toNat ∧ 1 ≤ (1 : Index).toNat ∧ (63 : Index).toNat ≤ s1.cfg.maxd ∧
    s1.cfg.allocFill = .zero := by decide
theorem test_witness_AllocDrawsEachWordOnce : State.reset.Inv ∧ State.reset.cfg.allocFill = .any ∧
    (3 : RegNum).toNat < State.reset.cfg.nv ∧ 1 ≤ (63 : Index).toNat ∧ (63 : Index).toNat ≤ State.reset.cfg.maxd := by
  unfold State.Inv; decide
theorem test_witness_FreeInvalidatesRegister : s1.cfg.nv ≤ (4 : RegNum).toNat ∧ (3 : RegNum).toNat < s1.cfg.nv ∧
    s1.valid 3 = false ∧ s1.valid 1 = true := by decide
theorem test_witness_CopyIsDeep : s1.cfg.nv ≤ (4 : RegNum).toNat ∧ (3 : RegNum).toNat < s1.cfg.nv ∧ s1.valid 3 = false ∧
    s1.valid 0 = true ∧ (1 : RegNum) ≠ 0 ∧ (1 : RegNum).toNat < s1.cfg.nv := by decide
theorem test_witness_OnlyDestinationRegisterChanges : (after (.add 0 1) s1).isSome ∧ (Instr.add 0 1).dest ≠ some 1 ∧
    (after (.cvt 0) s1).isSome ∧ (Instr.cvt 0).dest ≠ some 0 := by decide
theorem test_witness_DigitCommandsKeepCounts : (after (.setd 0 7 15) s1).isSome ∧ (after (.getd 0 7) s1).isSome ∧
    (after (.sign 0) s1).isSome ∧ (after (.add 0 1) s1).isSome ∧ (after (.cvt 0) s1).isSome := by decide

theorem test_witness_DigitStepBounds : 3 ≤ 3 ∧ (9 : Digit).toNat ≤ 9 ∧ 1 ≤ 1 := by decide
/-- A5: a final carry into the spare slot, on both settings; A2: one that is dropped; A1: none. -/
theorem test_witness_AddClosedForm : let a5 := holding (value 2 [0x95]) (value 1 [0x5])
    let a2 := holding (value 1 [0x5]) (value 3 [0x999])
    let f5 := refusing (value 2 [0x95]) (value 1 [0x5])
    a5.Inv ∧ a5.digitCount? 0 = some 2 ∧ a5.digitCount? 1 = some 1 ∧ SpareSumAllowed a5 0 1 1 2 ∧ carry a5 0 1 1 = 1 ∧
      a2.Inv ∧ a2.digitCount? 0 = some 1 ∧ a2.digitCount? 1 = some 3 ∧ SpareSumAllowed a2 0 1 1 1 ∧ carry a2 0 1 1 = 1 ∧
      s1.digitCount? 0 = some 3 ∧ s1.digitCount? 1 = some 2 ∧ SpareSumAllowed s1 0 1 2 3 ∧ carry s1 0 1 2 = 0 ∧
      f5.Inv ∧ SpareSumAllowed f5 0 1 1 2 := by
  unfold State.Inv SpareSumAllowed; decide
theorem test_witness_AddFrame : s1.digitCount? 0 = some 3 ∧ s1.digitCount? 1 = some 2 ∧ (after (.add 0 1) s1).isSome := by decide
/-- A5, A2 and A13a: each value of the loss. -/
theorem test_witness_AddValueLaw : let a5 := holding (value 2 [0x95]) (value 1 [0x5])
    let a2 := holding (value 1 [0x5]) (value 3 [0x999])
    let a13 := holding (value 2 [0xFF]) (value 1 [0xF])
    SpareSumAllowed a5 0 1 1 2 ∧ a5.digitNat 0 1 + carry a5 0 1 1 = 10 ∧ SpareSumAllowed a2 0 1 1 1 ∧ carry a2 0 1 1 ≠ 0 ∧
      a13.Inv ∧ SpareSumAllowed a13 0 1 1 2 ∧ a13.digitNat 0 1 + carry a13 0 1 1 = 18 ∧
      SpareSumAllowed s1 0 1 2 3 ∧ carry s1 0 1 2 = 0 := by
  unfold State.Inv SpareSumAllowed; decide
theorem test_witness_AddToItselfIsAddOfCopy : s1.valid 0 = true ∧ (3 : RegNum).toNat < s1.cfg.nv ∧ (3 : RegNum) ≠ 0 := by decide
/-- "123" and "45" against "-123" and "-945": signs and other's third digit differ. -/
theorem test_witness_AddIgnoresSignsAndHighDigits : let u := holding (value 3 [0x1123]) (value 2 [0x145])
    u.Inv ∧ u.cfg = s1.cfg ∧ s1.digitCount? 0 = some 3 ∧ s1.digitCount? 1 = some 2 ∧ u.digitCount? 0 = some 3 ∧
      u.digitCount? 1 = some 2 ∧ (∀ i, i < 3 → u.digitAt 0 i = s1.digitAt 0 i) ∧
      (∀ i, i < 2 → u.digitAt 1 i = s1.digitAt 1 i) ∧ u.signAt 0 ≠ s1.signAt 0 ∧
      (after (.add 0 1) s1).isSome ∧ (after (.add 0 1) u).isSome := by
  unfold State.Inv; decide
/-- A14, the thirteenth ADD, under `refuse`. -/
theorem test_witness_AddRefusesSpareSumAboveFifteen : let s := refusing (value 2 [0xF5]) (value 1 [0x05])
    s.digitCount? 0 = some 2 ∧ s.digitCount? 1 = some 1 ∧ s.cfg.setdOverflow = .refuse ∧ carry s 0 1 1 ≠ 0 ∧
      15 < s.digitNat 0 1 + carry s 0 1 1 := by decide

/-- C7 does not fit, C6 and C8 do. -/
theorem test_witness_CvtIsSignedValueModulo : let c7 := refusing (value 10 [0x47483648, 0x21]) none
    let c6 := refusing (value 10 [0x47483647, 0x21]) none
    let c8 := refusing (value 10 [0x47483648, 0x121]) none
    s1.cfg.nv ≤ (4 : RegNum).toNat ∧ (3 : RegNum).toNat < s1.cfg.nv ∧ s1.valid 3 = false ∧
      c7.Inv ∧ c7.valid 0 = true ∧ c7.cfg.accOverflow = .refuse ∧ ¬ Fits c7.cfg.accw (signedValue c7 0) ∧
      c6.Inv ∧ Fits c6.cfg.accw (signedValue c6 0) ∧ c8.Inv ∧ Fits c8.cfg.accw (signedValue c8 0) ∧
      s1.valid 0 = true ∧ s1.cfg.accOverflow = .wrap := by
  unfold State.Inv Fits signedValue; decide
theorem test_witness_CvtIsExactWhenValueFits : let s := holding (value 3 [0x1305]) none
    s.Inv ∧ s.valid 0 = true ∧ Fits s.cfg.accw (signedValue s 0) := by
  unfold State.Inv Fits signedValue; decide
theorem test_witness_AccIsWrittenByCvtAlone : (after (.add 0 1) s1).isSome ∧ (after (.cvt 0) s1).bind State.answer? = some (.ok, 123) := by
  decide

/-- An illegal word, a legal one that the table gives an error, and one it gives none. -/
theorem test_witness_ErrorsAreExactlyTheTable : IllegalWord s1.cfg.nv 0x70100001 ∧ ¬ IllegalWord s1.cfg.nv 0x10000000 ∧
    commandError s1 (.alloc 0 0) = some .errInvalidArg ∧ ¬ IllegalWord s1.cfg.nv 0x70100000 ∧
    commandError s1 (.add 0 1) = none ∧ (next? (step (facing [.command 0x70100000] s1))).isSome :=
  ⟨by dsimp only [IllegalWord]; decide, by dsimp only [IllegalWord]; decide, by decide,
    by dsimp only [IllegalWord]; decide, by decide, by decide⟩
/-- ADD with an invalid V2 is code 3 with data 0 on the channel (R171, R172); CVT of "123" is code 0 with 123 (R135). -/
theorem test_witness_StatusCodesAreTheTable :
    ((next? (step (facing [.command 0x70200000] s1))).bind fun t => t.response.map fun a =>
      (a.onChannel.1.toNat, a.onChannel.2.toNat)) = some (3, 0) ∧
    ((next? (step (facing [.command 0x80000000] s1))).bind fun t => t.response.map fun a =>
      (a.onChannel.1.toNat, a.onChannel.2.toNat)) = some (0, 123) ∧ s1.response = none := by decide
theorem test_witness_StepRunsDecodedCommand : (facing [.command 0x70100000] s1).response = none ∧
    decode s1.cfg.nv 0x70100000 = .ok (.add 0 1) := ⟨by decide, by rfl⟩
theorem test_witness_HandshakeOrdersCommandsAndResponses : (pending s1).response.isSome ∧
    (facing [.command 0] (pending s1)).host = [.command 0] ∧ (facing [.takeResponse] (pending s1)).host = [.takeResponse] ∧
    (facing [.takeResponse] s1).response = none ∧ s1.host = [] := by decide
theorem test_witness_OneResponsePerAcceptedCommand : (next? (step (facing [.command 0x70100000] s1))).isSome ∧
    (next? (step (facing [.command 0x70100000] (pending s1)))).isSome ∧
    (next? (step (facing [.takeResponse] (pending s1)))).isSome ∧ (next? (step s1)).isSome := by decide
theorem test_witness_ResetInputInvalidatesEverything : (facing [.reset] (pending s1)).host = .reset :: [] := by decide
/-- E5: CVT V0 is no ALLOC. -/
theorem test_witness_AfterResetCommandsNeedAlloc : decode s1.cfg.nv 0x80000000 = .ok (.cvt 0) ∧
    ∀ rd dc, Instr.cvt 0 ≠ .alloc rd dc := ⟨by rfl, fun _ _ h => by cases h⟩
theorem test_witness_StepKeepsInvariant : (facing [.command 0x70100000] s1).Inv ∧
    (next? (step (facing [.command 0x70100000] s1))).isSome := by
  unfold State.Inv; decide
theorem test_witness_ParametersNeverChange : (next? (step (facing [.reset] s1))).isSome := by decide
/-- A step of each kind that the statement names: a refusal by CVT, one by ADD, a configuration without refusals. -/
theorem test_witness_EveryAcceptedCommandIsAnswered :
    (facing [.command 0x80000000] (refusing (value 10 [0x47483648, 0x21]) none)).Inv ∧
      step (facing [.command 0x80000000] (refusing (value 10 [0x47483648, 0x21]) none)) = .refused .accumulatorOverflow ∧
      step (facing [.command 0x70100000] (refusing (value 2 [0xF5]) (value 1 [0x05]))) = .refused .spareSlotOverflow ∧
      s1.cfg.accOverflow = .wrap ∧ s1.cfg.setdOverflow = .truncate ∧
      (next? (step (facing [.command 0x70100000] s1))).isSome :=
  ⟨by unfold State.Inv; decide, by rfl, by rfl, by decide, by decide, by decide⟩

theorem test_witness_CountDecimalDigitsIsLeast : 1 ≤ 3 ∧ 305 < 10 ^ 3 := by decide
theorem test_witness_NewsRefusesExactlyMalformedStrings : ¬ (48 ≤ 'a'.toNat ∧ 'a'.toNat ≤ 57) ∧ 'a' ∈ ['1', '2', 'a', '3'] := by
  decide
theorem test_witness_CommandAndTakeAreTwoSteps : (Instr.add 0 1).wf s1.cfg.nv = true ∧ s1.response = none ∧
    (after (.add 0 1) (facing [.takeResponse] s1)).isSome := by decide
/-- The least and the greatest integer of NEWI's domain. -/
theorem test_witness_IntegerRoundTrip : (3 : RegNum).toNat < s1.cfg.nv ∧
    (-(2 ^ (s1.cfg.accw - 1)) < (-2147483647 : Int) ∧ (-2147483647 : Int) < 2 ^ (s1.cfg.accw - 1)) ∧
    (2147483647 : Int) < 2 ^ (s1.cfg.accw - 1) ∧ countDecimalDigits (-2147483647 : Int).natAbs ≤ s1.cfg.maxd := by decide
/-- "0", and 63 digits. -/
theorem test_witness_StringRoundTrip : (0 : RegNum).toNat < s1.cfg.nv ∧ ['0'] ≠ [] ∧
    (∀ c ∈ List.replicate 63 '9', 48 ≤ c.toNat ∧ c.toNat ≤ 57) ∧ (List.replicate 63 '9').length ≤ s1.cfg.maxd :=
  ⟨by decide, by decide, fun c h => by rw [List.eq_of_mem_replicate h]; decide, by decide⟩

end Sys2Proof.Tests
end

section
/-! PROOFS. `State.Inv` holds at reset and every step keeps it: each update of a state keeps it, then each command, then
each action of the host (spec/10_state.md R20, R22, R23, R28; spec/60_exceptions.md R171). -/

namespace Sys2Proof.Machine

variable {s t : State}

/-! ### The updates of a state -/

theorem State.Inv.answer (h : s.Inv) {e : Status} {d : BitVec s.cfg.accw} (hd : e = .ok ∨ d = 0) :
    (s.answer e d).Inv := by
  obtain ⟨hcfg, hmem, -, hdelivered⟩ := h
  refine ⟨hcfg, hmem, ?_, hdelivered⟩
  rintro _ ⟨⟩
  simpa [Response.legal] using hd

theorem State.Inv.setReg (h : s.Inv) (r : RegNum) {v : Option (PackedDecimal s.cfg.w)}
    (hv : ∀ u, v = some u → u.wf s.cfg = true) : (s.setReg r v).Inv := by
  obtain ⟨hcfg, hmem, hresponse, hdelivered⟩ := h
  exact ⟨hcfg, Memory.wf_setReg hmem r v hv, hresponse, hdelivered⟩

/-- The invariant says nothing of ACC (R29). -/
theorem State.Inv.setAcc (h : s.Inv) (a : BitVec s.cfg.accw) : (s.setAcc a).Inv := h

theorem State.Inv.drawn (h : s.Inv) (n : Nat) : (s.drawn n).Inv := h

theorem State.Inv.hostDone (h : s.Inv) (rest : List HostAction) : (s.hostDone rest).Inv := h

/-- A pending response is legal, so it is legal once the host has taken it (R60). -/
theorem State.Inv.deliver (h : s.Inv) : s.deliver.Inv := by
  obtain ⟨hcfg, hmem, hresponse, hdelivered⟩ := h
  refine ⟨hcfg, hmem, nofun, fun a ha => ?_⟩
  rcases List.mem_append.mp ha with ha | ha
  · exact hdelivered a ha
  · exact hresponse a (Option.mem_toList.mp ha)

theorem State.Inv.resetInput (h : s.Inv) : s.resetInput.Inv := by
  obtain ⟨hcfg, -, -, hdelivered⟩ := h
  exact ⟨hcfg, Memory.wf_resetInput, nofun, hdelivered⟩

theorem State.Inv.wf_of_reg? (h : s.Inv) {r : RegNum} {v : PackedDecimal s.cfg.w} (hr : s.reg? r = some (some v)) :
    v.wf s.cfg = true := by
  obtain ⟨-, hmem, -⟩ := h
  exact Memory.wf_of_reg? hmem hr

/-- A command that writes one legal record and answers OK. -/
theorem State.Inv.setReg_answer_ok (h : s.Inv) (r : RegNum) {v : PackedDecimal s.cfg.w} (hv : v.wf s.cfg = true)
    (d : BitVec s.cfg.accw) : ((s.setReg r (some v)).answer .ok d).Inv :=
  (h.setReg r (by rintro _ ⟨⟩; exact hv)).answer (.inl rfl)

theorem ErrorAnswer.inv (he : ErrorAnswer s t) (h : s.Inv) : t.Inv := by
  obtain ⟨e, -, rfl⟩ := he
  exact h.answer (.inr rfl)

/-! ### The commands -/

/-- ADD keeps its destination's counts and its number of words, whatever the record holds (R128). -/
theorem addValue_counts {w : Nat} {mode : SetdOverflow} {self v : PackedDecimal w} {other : Option (PackedDecimal w)}
    (h : addValue mode self other = .ok v) : v.dc = self.dc ∧ v.wc = self.wc ∧ v.buf.length = self.buf.length := by
  rcases addFinalCarry_cases h with ⟨-, -, rfl⟩ | ⟨-, rfl⟩
  · rw [PackedDecimal.setDigit_length]
    exact addLoop_frame other _ self
  · exact addLoop_frame other _ self

/-- Legality of a record is a matter of its counts and its number of words alone: digits may hold anything (R28). -/
theorem PackedDecimal.wf_of_counts {c : Config} {u v : PackedDecimal c.w} (hdc : v.dc = u.dc) (hwc : v.wc = u.wc)
    (hlength : v.buf.length = u.buf.length) (hu : u.wf c = true) : v.wf c = true := by
  unfold PackedDecimal.wf at hu ⊢
  rwa [hdc, hwc, hlength]

/-- Every command keeps the invariant: an error writes only a response with data 0, and every record written is legal. -/
theorem exec_keeps_inv {i : Instr} (hs : s.Inv) (h : exec i s = .next t) : t.Inv := by
  cases i with
  | alloc rd dc =>
    rcases execAlloc_cases h with ⟨-, hpos, hmax, rfl⟩ | he
    · have hfresh := PackedDecimal.wf_alloc s.cfg dc s.draws hpos hmax
      exact ((hs.setReg rd (by rintro _ ⟨⟩; exact hfresh)).drawn _).answer (.inl rfl)
    · exact he.inv hs
  | free rd =>
    rcases execFree_cases h with ⟨v, -, rfl⟩ | he
    · exact (hs.setReg rd (fun _ hnone => by cases hnone)).answer (.inl rfl)
    · exact he.inv hs
  | copy rd rs =>
    rcases execCopy_cases h with ⟨v, hv, -, rfl⟩ | he
    · split
      · exact hs.answer (.inl rfl)
      · exact hs.setReg_answer_ok rd (hs.wf_of_reg? hv) 0
    · exact he.inv hs
  | setd rd idx val =>
    rcases execSetd_cases h with ⟨v, hv, -, -, rfl⟩ | he
    · exact hs.setReg_answer_ok rd (PackedDecimal.wf_setDigit (hs.wf_of_reg? hv) val idx.toNat) 0
    · exact he.inv hs
  | getd rd idx =>
    rcases execGetd_cases h with ⟨v, -, -, -, rfl⟩ | he
    · exact hs.answer (.inl rfl)
    · exact he.inv hs
  | sign rd =>
    rcases execSign_cases h with ⟨v, -, -, rfl⟩ | he
    · exact hs.answer (.inl rfl)
    · exact he.inv hs
  | add rd rs =>
    rcases execAdd_cases h with ⟨a, b, v, ha, -, -, -, hsum, rfl⟩ | he
    · obtain ⟨hdc, hwc, hlength⟩ := addValue_counts hsum
      exact hs.setReg_answer_ok rd (PackedDecimal.wf_of_counts hdc hwc hlength (hs.wf_of_reg? ha)) 0
    · exact he.inv hs
  | cvt rd =>
    rcases execCvt_cases h with ⟨v, -, -, -, rfl⟩ | he
    · exact (hs.setAcc _).answer (.inl rfl)
    · exact he.inv hs

/-! ### Reset and the steps -/

/-- Settles O35: the default parameters are admissible, and there is no record and no response. -/
theorem resetStateMeetsInvariant : Obligations.ResetStateMeetsInvariant :=
  ⟨by decide, Memory.wf_reset, nofun, nofun⟩

/-- Settles O36, by cases on what the host does: the accepted word is the one case that runs a command. -/
theorem stepKeepsInvariant : Obligations.StepKeepsInvariant := by
  intro s t hs h
  rcases step_cases h with rfl | ⟨rest, -, rfl⟩ | ⟨rest, -, -, rfl⟩ | ⟨word, rest, -, -, ⟨i, -, hexec⟩ | ⟨-, rfl⟩⟩
  · exact hs
  · exact (hs.hostDone rest).resetInput
  · exact (hs.hostDone rest).deliver
  · exact exec_keeps_inv (hs.hostDone rest) hexec
  · exact (hs.hostDone rest).answer (.inr rfl)

end Sys2Proof.Machine
end

section
/-! PROOFS. What a step leaves of the parameters, and a command of the registers and of their counts (spec/10_state.md
R21, R22, R23, R31, R34). -/

open Sys2Proof.Spec

namespace Sys2Proof.Machine

variable {s t : State}

theorem exec_keeps_cfg {i : Instr} (h : exec i s = .next t) : t.cfg = s.cfg := by
  obtain ⟨regs, acc, a, n, rfl, -⟩ := exec_frame h
  rfl

theorem exec_keeps_register {i : Instr} {r : RegNum} (h : exec i s = .next t) (hr : i.dest ≠ some r) :
    s.SameRegister t r := by
  obtain ⟨regs, acc, a, n, rfl, hregs⟩ := exec_frame h
  exact State.sameRegister_of (hregs r hr)

/-- Settles O37: only an accepted word could, and no command does. -/
theorem parametersNeverChange : Obligations.ParametersNeverChange := by
  intro s t h
  rcases step_cases h with rfl | ⟨rest, -, rfl⟩ | ⟨rest, -, -, rfl⟩ | ⟨word, rest, -, -, ⟨i, -, hexec⟩ | ⟨-, rfl⟩⟩
  · rfl
  · rfl
  · rfl
  · exact exec_keeps_cfg (s := s.hostDone rest) hexec
  · rfl

/-- Settles O16, from the frame of `exec`. -/
theorem onlyDestinationRegisterChanges : Obligations.OnlyDestinationRegisterChanges :=
  fun _ _ _ _ h hr => exec_keeps_register h hr

/-! ### The counts -/

theorem State.SameRegister.countsKept {r : RegNum} (h : s.SameRegister t r) : CountsKept s t r := by
  obtain ⟨hvalid, hdc, hwc, -⟩ := h
  exact ⟨hvalid, hdc, hwc⟩

theorem ErrorAnswer.countsKept (he : ErrorAnswer s t) (r : RegNum) : CountsKept s t r := by
  obtain ⟨e, -, rfl⟩ := he
  exact ⟨rfl, rfl, rfl⟩

/-- Replacing a register's record by one with the same counts keeps the counts of every register. -/
theorem countsKept_setReg {rd : RegNum} {u v : PackedDecimal s.cfg.w} (hu : s.reg? rd = some (some u))
    (hdc : v.dc = u.dc) (hwc : v.wc = u.wc) (e : Status) (d : BitVec s.cfg.accw) (r : RegNum) :
    CountsKept s ((s.setReg rd (some v)).answer e d) r := by
  by_cases hr : r = rd
  · subst hr
    have before : s.value? r = some u := (State.value?_eq_some_iff r u).mpr hu
    have after : ((s.setReg r (some v)).answer e d).value? r = some v :=
      State.value?_setReg_same (some v) (State.lt_of_reg? hu)
    simp [CountsKept, State.valid, State.digitCount?, State.wordCount?, before, after, hdc, hwc]
  · exact (State.sameRegister_setReg (n := 0) hr).countsKept

/-- Settles O17: SETD and ADD put back a record with the counts it had; GETD, SIGN and CVT have no destination. -/
theorem digitCommandsKeepCounts : Obligations.DigitCommandsKeepCounts := by
  intro s t rd rs idx val i hi h r
  rcases hi with rfl | rfl | rfl | rfl | rfl
  case inl =>
    rcases execSetd_cases h with ⟨v, hv, -, -, rfl⟩ | he
    · exact countsKept_setReg (v := v.setDigit val idx.toNat) hv rfl rfl .ok 0 r
    · exact he.countsKept r
  case inr.inl => exact (exec_keeps_register h nofun).countsKept
  case inr.inr.inl => exact (exec_keeps_register h nofun).countsKept
  case inr.inr.inr.inl =>
    rcases execAdd_cases h with ⟨a, b, v, ha, -, -, -, hsum, rfl⟩ | he
    · obtain ⟨hdc, hwc, -⟩ := addValue_counts hsum
      exact countsKept_setReg ha hdc hwc .ok 0 r
    · exact he.countsKept r
  case inr.inr.inr.inr => exact (exec_keeps_register h nofun).countsKept

end Sys2Proof.Machine
end

section
/-! PROOFS. ACC is written by CVT alone and no command reads it (spec/10_state.md R29): two runs of a command from states
that differ in ACC alone end in states that differ in ACC at most. -/

namespace Sys2Proof.Machine

variable {s t : State}

theorem ErrorAnswer.acc_eq (he : ErrorAnswer s t) : t.acc.toNat = s.acc.toNat := by
  obtain ⟨e, -, rfl⟩ := he
  rfl

theorem exec_keeps_acc {i : Instr} (h : exec i s = .next t) (hi : ∀ rd, i ≠ .cvt rd) :
    t.acc.toNat = s.acc.toNat := by
  cases i with
  | alloc rd dc =>
    rcases execAlloc_cases h with ⟨-, -, -, rfl⟩ | he
    · rfl
    · exact he.acc_eq
  | free rd =>
    rcases execFree_cases h with ⟨v, -, rfl⟩ | he
    · rfl
    · exact he.acc_eq
  | copy rd rs =>
    rcases execCopy_cases h with ⟨v, -, -, ht⟩ | he
    · split at ht <;> (subst ht; rfl)
    · exact he.acc_eq
  | setd rd idx val =>
    rcases execSetd_cases h with ⟨v, -, -, -, rfl⟩ | he
    · rfl
    · exact he.acc_eq
  | getd rd idx =>
    rcases execGetd_cases h with ⟨v, -, -, -, rfl⟩ | he
    · rfl
    · exact he.acc_eq
  | sign rd =>
    rcases execSign_cases h with ⟨v, -, -, rfl⟩ | he
    · rfl
    · exact he.acc_eq
  | add rd rs =>
    rcases execAdd_cases h with ⟨a, b, v, -, -, -, -, -, rfl⟩ | he
    · rfl
    · exact he.acc_eq
  | cvt rd => exact absurd rfl (hi rd)

/-- A CVT that is answered OK is answered with the ACC it wrote (R29, R135). -/
theorem execCvt_answers_acc {rd : RegNum} {n : Nat} (h : execCvt rd s = .next t) (ht : t.answer? = some (.ok, n)) :
    n = t.acc.toNat := by
  rcases execCvt_cases h with ⟨v, -, -, -, rfl⟩ | ⟨e, hne, rfl⟩
  · cases ht
    rfl
  · cases ht
    exact absurd rfl hne

/-! ### No command reads ACC -/

/-- The two states agree in all that is observable but ACC: the response, every register and the surroundings. -/
def State.AgreesButAcc (t u : State) : Prop :=
  u.answer? = t.answer? ∧ (∀ r, t.SameRegister u r) ∧ t.SameSurroundings u

/-- If the run with result `x` completes, so does the one with result `y`, and the two agree in all but ACC. -/
def FollowsButAcc (x y : Result) : Prop := ∀ t, x = .next t → ∃ u, y = .next u ∧ t.AgreesButAcc u

theorem State.agreesButAcc_setAcc (t : State) (a : BitVec t.cfg.accw) : t.AgreesButAcc (t.setAcc a) :=
  ⟨rfl, fun _ => ⟨rfl, rfl, rfl, fun _ => rfl⟩, rfl, rfl, rfl⟩

namespace FollowsButAcc

variable {a : BitVec s.cfg.accw}

/-- Runs that end in one state and in the same with another ACC. -/
theorem next_setAcc (t : State) (a : BitVec t.cfg.accw) : FollowsButAcc (.next t) (.next (t.setAcc a)) := by
  rintro _ ⟨⟩
  exact ⟨_, rfl, t.agreesButAcc_setAcc a⟩

theorem next (t : State) : FollowsButAcc (.next t) (.next t) := next_setAcc t t.acc

theorem stopped {x y : Result} (hx : ∀ t, x ≠ .next t) : FollowsButAcc x y := fun t h => absurd h (hx t)

theorem ite {c : Prop} [Decidable c] {x x' y y' : Result} (hx : FollowsButAcc x x') (hy : FollowsButAcc y y') :
    FollowsButAcc (if c then x else y) (if c then x' else y') := by
  split
  · exact hx
  · exact hy

theorem raise (e : Status) : FollowsButAcc (s.raise e) ((s.setAcc a).raise e) := next_setAcc (s.answer e 0) a

theorem respond (d : BitVec s.cfg.accw) : FollowsButAcc (s.respond d) ((s.setAcc a).respond d) :=
  next_setAcc (s.answer .ok d) a

theorem setReg_respond (r : RegNum) (v : Option (PackedDecimal s.cfg.w)) (d : BitVec s.cfg.accw) :
    FollowsButAcc ((s.setReg r v).respond d) (((s.setAcc a).setReg r v).respond d) :=
  next_setAcc ((s.setReg r v).answer .ok d) a

theorem ifLegal (rs : List RegNum) {k k' : Result} (hk : FollowsButAcc k k') :
    FollowsButAcc (s.ifLegal rs k) ((s.setAcc a).ifLegal rs k') := by
  unfold State.ifLegal
  exact ite hk (raise .errIllegal)

theorem withValue (r : RegNum) {k k' : PackedDecimal s.cfg.w → Result} (hk : ∀ v, FollowsButAcc (k v) (k' v)) :
    FollowsButAcc (s.withValue r k) ((s.setAcc a).withValue r k') := by
  unfold State.withValue
  simp only [State.reg?_setAcc]
  split
  · exact raise .errIllegal
  · exact raise .errUnalloc
  · exact hk _

theorem withDigits (r : RegNum) {k k' : PackedDecimal s.cfg.w → Result} (hk : ∀ v, FollowsButAcc (k v) (k' v)) :
    FollowsButAcc (s.withDigits r k) ((s.setAcc a).withDigits r k') :=
  withValue r fun v => ite (hk v) (stopped nofun)

end FollowsButAcc

open FollowsButAcc in
/-- With any other value in ACC a command does the same, up to ACC (R29). -/
theorem exec_followsButAcc (i : Instr) (s : State) (a : BitVec s.cfg.accw) :
    FollowsButAcc (exec i s) (exec i (s.setAcc a)) := by
  cases i with
  | alloc rd dc =>
    exact ifLegal [rd] (ite (raise .errInvalidArg) (ite (raise .errCapacity)
      (next_setAcc (((s.setReg rd _).drawn _).answer .ok 0) a)))
  | free rd => exact ifLegal [rd] (withValue rd fun _ => setReg_respond rd none 0)
  | copy rd rs =>
    exact ifLegal [rd, rs] (withValue rs fun v => ite (respond 0) (setReg_respond rd (some v) 0))
  | setd rd idx val =>
    exact ifLegal [rd] (withDigits rd fun v => ite (setReg_respond rd _ 0) (raise .errRange))
  | getd rd idx => exact ifLegal [rd] (withDigits rd fun v => ite (respond _) (raise .errRange))
  | sign rd => exact ifLegal [rd] (withDigits rd fun v => respond _)
  | add rd rs =>
    refine ifLegal [rd, rs] (withDigits rd fun v => withDigits rs fun b => ?_)
    simp only [State.setAcc_cfg]
    split
    · exact setReg_respond rd _ 0
    · exact stopped nofun
  | cvt rd => exact ifLegal [rd] (withDigits rd fun v => ite (stopped nofun) (next _))

/-- Settles O27, its three clauses by `exec_keeps_acc`, `execCvt_answers_acc` and `exec_followsButAcc`. -/
theorem accIsWrittenByCvtAlone : Obligations.AccIsWrittenByCvtAlone := by
  refine fun s t i h => ⟨exec_keeps_acc h, ?_, fun a => exec_followsButAcc i s a t h⟩
  rintro rd n rfl ht
  exact execCvt_answers_acc h ht

end Sys2Proof.Machine
end

section
/-! PROOFS. What ALLOC draws (spec/10_state.md R33), and the interface after reset (R35). -/

namespace Sys2Proof.Machine

variable {s : State}

/-! ### The words of a fresh buffer -/

/-- Under `alloc_fill = any` word `k` is a free value of its own (R33). -/
theorem fillWords_any_getElem? {c : Config} (hfill : c.allocFill = .any) (draws : Nat) {wc k : Nat} (hk : k < wc) :
    (fillWords c draws wc)[k]? = some (Config.draw (draws + k) c.w) := by
  simp [fillWords, hfill, hk]

/-- ALLOC of an admissible digit count on a register the machine has completes (R100). -/
theorem execAlloc_of {rd : RegNum} {dc : Index} (hrd : rd.toNat < s.cfg.nv) (hpos : 1 ≤ dc.toNat)
    (hmax : dc.toNat ≤ s.cfg.maxd) :
    execAlloc rd dc s = .next (((s.setReg rd (some ⟨dc, dc.toNat / s.cfg.dpw + 1,
      fillWords s.cfg s.draws (dc.toNat / s.cfg.dpw + 1)⟩)).drawn (dc.toNat / s.cfg.dpw + 1)).answer .ok 0) := by
  have hne : dc ≠ 0 := by
    rintro rfl
    simp at hpos
  unfold execAlloc
  rw [State.ifLegal_of (by simpa [RegNum.legal] using hrd), if_neg hne, if_neg (Nat.not_lt.mpr hmax)]
  rfl

/-- The word a register's record holds, where its counts name one (R40). -/
theorem State.wordAt_of_value? {r : RegNum} {v : PackedDecimal s.cfg.w} (hr : s.value? r = some v) {k : Nat}
    (hk : k < v.wc) : s.wordAt r k = (v.buf[k]?).map BitVec.toNat := by
  simp [State.wordAt, hr, hk]

/-- Settles O13: the words are those of `fillWords`, and the counter passes as many draws as there are words. -/
theorem allocDrawsEachWordOnce : Obligations.AllocDrawsEachWordOnce := by
  intro s rd dc _ hfill hrd hpos hmax
  refine ⟨_, execAlloc_of hrd hpos hmax, fun k hk => ⟨?_, Nat.add_lt_add_left hk s.draws⟩⟩
  rw [State.wordAt_of_value? (State.value?_setReg_same _ hrd) hk]
  exact congrArg (Option.map BitVec.toNat) (fillWords_any_getElem? hfill s.draws hk)

/-! ### Reset -/

/-- A run that completes with a response pending (R60). -/
def Answered (x : Result) : Prop := ∃ t, x = .next t ∧ (t.answer?).isSome

theorem answered_raise (s : State) (e : Status) : Answered (s.raise e) := ⟨_, rfl, rfl⟩

theorem answered_ifLegal (rs : List RegNum) {k : Result} (hk : Answered k) : Answered (s.ifLegal rs k) := by
  unfold State.ifLegal
  split
  · exact hk
  · exact answered_raise s .errIllegal

/-- A command that needs the value of a register without one is answered with an error (R172). -/
theorem answered_withValue {r : RegNum} (hr : s.valid r = false) (k : PackedDecimal s.cfg.w → Result) :
    Answered (s.withValue r k) := by
  unfold State.withValue
  split
  · exact answered_raise s .errIllegal
  · exact answered_raise s .errUnalloc
  · next v hv => simp [State.valid, State.value?, hv] at hr

theorem answered_execAlloc (rd : RegNum) (dc : Index) (s : State) : Answered (execAlloc rd dc s) := by
  refine answered_ifLegal [rd] ?_
  split
  · exact answered_raise s .errInvalidArg
  · split
    · exact answered_raise s .errCapacity
    · exact ⟨_, rfl, rfl⟩

/-- Where no register holds a value, every command is answered (R191). -/
theorem answered_exec_of_all_invalid (hs : ∀ r, s.valid r = false) (i : Instr) : Answered (exec i s) := by
  cases i with
  | alloc rd dc => exact answered_execAlloc rd dc s
  | free rd => exact answered_ifLegal [rd] (answered_withValue (hs rd) _)
  | copy rd rs => exact answered_ifLegal [rd, rs] (answered_withValue (hs rs) _)
  | setd rd idx val => exact answered_ifLegal [rd] (answered_withValue (hs rd) _)
  | getd rd idx => exact answered_ifLegal [rd] (answered_withValue (hs rd) _)
  | sign rd => exact answered_ifLegal [rd] (answered_withValue (hs rd) _)
  | add rd rs => exact answered_ifLegal [rd, rs] (answered_withValue (hs rd) _)
  | cvt rd => exact answered_ifLegal [rd] (answered_withValue (hs rd) _)

/-- Where no register holds a value, every word is answered, an illegal one too (R65). -/
theorem answered_runWord_of_all_invalid (hs : ∀ r, s.valid r = false) (word : CommandWord) :
    Answered (s.runWord word) := by
  unfold State.runWord
  split
  · exact answered_exec_of_all_invalid hs _
  · exact answered_raise s .errIllegal

theorem valid_reset (r : RegNum) : State.reset.valid r = false := by
  revert r
  decide

/-- Settles O34: the reset state holds no value, so whatever word comes first is answered. -/
theorem resetLeavesNoValueAndIdleInterface : Obligations.ResetLeavesNoValueAndIdleInterface :=
  ⟨valid_reset, rfl, fun word =>
    answered_runWord_of_all_invalid (s := State.reset.hostDone []) valid_reset word⟩

end Sys2Proof.Machine
end

section
/-! PROOFS. The decoder and the encoder (spec/30_encoding.md R61 to R65). A word decodes to a command exactly when its
fields are the command's and the command's registers exist; the statements of the family follow from that. -/

open Sys2Proof.Spec Sys2Proof.Laws.EncodingRow

namespace Sys2Proof

variable {nv : Nat} {word : CommandWord}

/-! ### Words and commands -/

theorem wordOf_inj {f g : Fields} : wordOf f = wordOf g ↔ f = g :=
  ⟨fun h => by rw [← fieldsOf_wordOf f, h, fieldsOf_wordOf], congrArg wordOf⟩

/-- Only the word of a command has the command's fields (R61). -/
theorem fieldsOf_eq_fields_iff {i : Instr} : fieldsOf word = i.fields ↔ encode i = word := by
  rw [encode, ← wordOf_inj, wordOf_fieldsOf, eq_comm]

/-- A command decodes from its own word, its unused fields being zero there (R62), if its registers exist (R65 (c)). -/
theorem decode_encode {i : Instr} (hi : i.wf nv = true) : decode nv (encode i) = .ok i := by
  unfold decode encode
  rw [fieldsOf_wordOf]
  cases i with
  | alloc | free | copy | setd | getd | sign | add | cvt => exact legalCommand_eq_ok.mpr ⟨rfl, hi, rfl⟩

theorem fields_of_decode {i : Instr} (h : decode nv word = .ok i) : fieldsOf word = i.fields ∧ i.wf nv = true := by
  unfold decode at h
  generalize fieldsOf word = f at h ⊢
  dsimp only at h
  split at h
  case h_9 => cases h
  all_goals
    next hop =>
    obtain ⟨hunused, hwf, rfl⟩ := legalCommand_eq_ok.mp h
    simp only [Bool.and_eq_true, beq_iff_eq] at hunused
    refine ⟨?_, hwf⟩
    apply fields_ext <;> simp [Instr.fields, hop, hunused]

theorem decode_eq_ok_iff {i : Instr} : decode nv word = .ok i ↔ fieldsOf word = i.fields ∧ i.wf nv = true := by
  refine ⟨fields_of_decode, fun ⟨hfields, hwf⟩ => ?_⟩
  rw [← fieldsOf_eq_fields_iff.mp hfields]
  exact decode_encode hwf

/-- Settles O3, by cases on the row of the opcode map. -/
theorem decodeOfEncodeIsIdentity : Obligations.DecodeOfEncodeIsIdentity := fun _ _ => decode_encode

/-- Settles O4: the fields are the command's, and the fields are the word. -/
theorem encodeOfDecodeIsIdentity : Obligations.EncodeOfDecodeIsIdentity := fun _ _ _ h =>
  have ⟨hfields, hwf⟩ := fields_of_decode h
  ⟨fieldsOf_eq_fields_iff.mp hfields, hwf⟩

end Sys2Proof
end

section
/-! PROOFS. The opcode map and the illegal words (spec/30_encoding.md R62, R64, R65): one row lemma per format, and the
words that no format admits. -/

open Sys2Proof.Spec Sys2Proof.Laws.EncodingRow

namespace Sys2Proof

variable {nv : Nat} {word : CommandWord}

/-! ### The fields as slices -/

theorem slice_op : slice word 28 4 = (fieldsOf word).op.toNat := (fieldsOf_op_toNat word).symm
theorem slice_rd : slice word 24 4 = (fieldsOf word).rd.toNat := (fieldsOf_rd_toNat word).symm
theorem slice_rs : slice word 20 4 = (fieldsOf word).rs.toNat := (fieldsOf_rs_toNat word).symm
theorem slice_val : slice word 16 4 = (fieldsOf word).val.toNat := (fieldsOf_val_toNat word).symm
theorem slice_idx : slice word 0 16 = (fieldsOf word).idx.toNat := by
  rw [fieldsOf_idx_toNat, slice, pow_zero, Nat.div_one]

theorem toNat_eq_zero_iff {n : Nat} {x : BitVec n} : x.toNat = 0 ↔ x = 0 := by
  rw [← BitVec.toNat_inj, BitVec.ofNat_eq_ofNat, BitVec.toNat_zero]

theorem eq_slice_rd {rd : RegNum} : rd.toNat = slice word 24 4 ↔ (fieldsOf word).rd = rd := by
  rw [slice_rd, BitVec.toNat_inj, eq_comm]
theorem eq_slice_rs {rs : RegNum} : rs.toNat = slice word 20 4 ↔ (fieldsOf word).rs = rs := by
  rw [slice_rs, BitVec.toNat_inj, eq_comm]
theorem eq_slice_val {val : Digit} : val.toNat = slice word 16 4 ↔ (fieldsOf word).val = val := by
  rw [slice_val, BitVec.toNat_inj, eq_comm]
theorem eq_slice_idx {idx : Index} : idx.toNat = slice word 0 16 ↔ (fieldsOf word).idx = idx := by
  rw [slice_idx, BitVec.toNat_inj, eq_comm]

theorem fields_eq_iff {f : Fields} {op rd rs val : BitVec 4} {idx : Index} :
    f = ⟨op, rd, rs, val, idx⟩ ↔ f.op = op ∧ f.rd = rd ∧ f.rs = rs ∧ f.val = val ∧ f.idx = idx := by
  cases f
  rw [Fields.mk.injEq]

theorem Instr.wf_iff {i : Instr} : i.wf nv = true ↔ ∀ r ∈ i.registers, r.toNat < nv := by
  simp [Instr.wf, RegNum.legal]

theorem Instr.wf_iff_of_one {i : Instr} {rd : RegNum} (h : i.registers = [rd]) : i.wf nv = true ↔ rd.toNat < nv := by
  rw [Instr.wf_iff, h, List.forall_mem_singleton]

theorem Instr.wf_iff_of_two {i : Instr} {rd rs : RegNum} (h : i.registers = [rd, rs]) :
    i.wf nv = true ↔ rd.toNat < nv ∧ rs.toNat < nv := by
  rw [Instr.wf_iff, h, List.forall_mem_cons, List.forall_mem_singleton]

/-! ### The opcode map -/

theorem and_allOnes_digit (x : BitVec 4) : x &&& 15#4 = x := BitVec.and_allOnes
theorem and_allOnes_index (x : BitVec 16) : x &&& 65535#16 = x := BitVec.and_allOnes

/-- Masking a word with a row's mask and comparing it with the row's match compares the masked fields (R64). -/
theorem and_wordOf_eq_wordOf_iff (mask row : Fields) : word &&& wordOf mask = wordOf row ↔
    (fieldsOf word).op &&& mask.op = row.op ∧ (fieldsOf word).rd &&& mask.rd = row.rd ∧
    (fieldsOf word).rs &&& mask.rs = row.rs ∧ (fieldsOf word).val &&& mask.val = row.val ∧
    (fieldsOf word).idx &&& mask.idx = row.idx := by
  conv_lhs => rw [← wordOf_fieldsOf word]
  rw [wordOf_and_wordOf, wordOf_inj, fields_eq_iff]

section Rows

variable {i : Instr} (op : BitVec 4) {rd rs : RegNum} {val : Digit} {idx : Index}

/-- A row of format R1, which uses `rd` (R62). -/
theorem decode_iff_row_R1 (hfields : i.fields = ⟨op, rd, 0, 0, 0⟩) (hregs : i.registers = [rd]) :
    decode nv word = .ok i ↔ word &&& 0xF0FFFFFF = wordOf ⟨op, 0, 0, 0, 0⟩ ∧
      rd.toNat = slice word 24 4 ∧ rd.toNat < nv := by
  rw [show (0xF0FFFFFF : CommandWord) = wordOf ⟨15, 0, 15, 15, 0xFFFF⟩ from rfl, and_wordOf_eq_wordOf_iff,
    decode_eq_ok_iff, Instr.wf_iff_of_one hregs, hfields, fields_eq_iff, eq_slice_rd]
  simp only [BitVec.ofNat_eq_ofNat, BitVec.and_zero, and_allOnes_digit, and_allOnes_index, true_and]
  tauto

/-- A row of format R2, which uses `rd` and `rs` (R62). -/
theorem decode_iff_row_R2 (hfields : i.fields = ⟨op, rd, rs, 0, 0⟩) (hregs : i.registers = [rd, rs]) :
    decode nv word = .ok i ↔ word &&& 0xF00FFFFF = wordOf ⟨op, 0, 0, 0, 0⟩ ∧
      rd.toNat = slice word 24 4 ∧ rs.toNat = slice word 20 4 ∧ rd.toNat < nv ∧ rs.toNat < nv := by
  rw [show (0xF00FFFFF : CommandWord) = wordOf ⟨15, 0, 0, 15, 0xFFFF⟩ from rfl, and_wordOf_eq_wordOf_iff,
    decode_eq_ok_iff, Instr.wf_iff_of_two hregs, hfields, fields_eq_iff, eq_slice_rd, eq_slice_rs]
  simp only [BitVec.ofNat_eq_ofNat, BitVec.and_zero, and_allOnes_digit, and_allOnes_index, true_and]
  tauto

/-- A row of format RI, which uses `rd` and `idx` (R62). -/
theorem decode_iff_row_RI (hfields : i.fields = ⟨op, rd, 0, 0, idx⟩) (hregs : i.registers = [rd]) :
    decode nv word = .ok i ↔ word &&& 0xF0FF0000 = wordOf ⟨op, 0, 0, 0, 0⟩ ∧
      rd.toNat = slice word 24 4 ∧ idx.toNat = slice word 0 16 ∧ rd.toNat < nv := by
  rw [show (0xF0FF0000 : CommandWord) = wordOf ⟨15, 0, 15, 15, 0⟩ from rfl, and_wordOf_eq_wordOf_iff,
    decode_eq_ok_iff, Instr.wf_iff_of_one hregs, hfields, fields_eq_iff, eq_slice_rd, eq_slice_idx]
  simp only [BitVec.ofNat_eq_ofNat, BitVec.and_zero, and_allOnes_digit, true_and, and_true]
  tauto

/-- The row of format RIV, which uses `rd`, `val` and `idx` (R62). -/
theorem decode_iff_row_RIV (hfields : i.fields = ⟨op, rd, 0, val, idx⟩) (hregs : i.registers = [rd]) :
    decode nv word = .ok i ↔ word &&& 0xF0F00000 = wordOf ⟨op, 0, 0, 0, 0⟩ ∧
      rd.toNat = slice word 24 4 ∧ idx.toNat = slice word 0 16 ∧ val.toNat = slice word 16 4 ∧ rd.toNat < nv := by
  rw [show (0xF0F00000 : CommandWord) = wordOf ⟨15, 0, 15, 0, 0⟩ from rfl, and_wordOf_eq_wordOf_iff,
    decode_eq_ok_iff, Instr.wf_iff_of_one hregs, hfields, fields_eq_iff, eq_slice_rd, eq_slice_idx, eq_slice_val]
  simp only [BitVec.ofNat_eq_ofNat, BitVec.and_zero, and_allOnes_digit, true_and, and_true]
  tauto

end Rows

/-- Settles O2, each row by the lemma of its format. -/
theorem opcodeMapIsMatchAndMask : Obligations.OpcodeMapIsMatchAndMask := fun _ _ =>
  ⟨fun _ _ => decode_iff_row_RI 1 rfl rfl, fun _ => decode_iff_row_R1 2 rfl rfl,
    fun _ _ => decode_iff_row_R2 3 rfl rfl, fun _ _ _ => decode_iff_row_RIV 4 rfl rfl,
    fun _ _ => decode_iff_row_RI 5 rfl rfl, fun _ => decode_iff_row_R1 6 rfl rfl,
    fun _ _ => decode_iff_row_R2 7 rfl rfl, fun _ => decode_iff_row_R1 8 rfl rfl⟩

/-- Settles O1, each word of the table by evaluating the decoder. -/
theorem workedEncodingsDecode : Obligations.WorkedEncodingsDecode :=
  ⟨rfl, rfl, rfl, rfl, rfl, rfl, rfl, rfl, rfl, rfl, rfl, ⟨_, rfl⟩, ⟨_, rfl⟩, ⟨_, rfl⟩⟩

/-! ### Illegal words -/

/-- The fields of a command are zero where its format uses none, and its registers exist (R62, R65). -/
theorem not_illegalWord_of_decode {i : Instr} (h : decode nv word = .ok i) : ¬ IllegalWord nv word := by
  obtain ⟨hfields, hwf⟩ := decode_eq_ok_iff.mp h
  rw [Instr.wf_iff] at hwf
  simp only [IllegalWord, slice_op, slice_rd, slice_rs, slice_val, slice_idx, hfields]
  cases i with
  | alloc | free | copy | setd | getd | sign | add | cvt =>
    simp_all [Instr.fields, Instr.registers]

/-- A word without any of the three grounds of R65 is the command of its operation code with its fields as operands. -/
theorem exists_decode_of_not_illegalWord (h : ¬ IllegalWord nv word) : ∃ i, decode nv word = .ok i := by
  simp only [decode_eq_ok_iff]
  simp only [IllegalWord, slice_op, slice_rd, slice_rs, slice_val, slice_idx] at h
  generalize fieldsOf word = f at h ⊢
  obtain ⟨op, rd, rs, val, idx⟩ := f
  push Not at h
  simp only [toNat_eq_zero_iff] at h
  obtain ⟨⟨h0, h9⟩, ⟨hR1, hR2, hRI, hRIV⟩, hrd, hrs⟩ := h
  have hop : op = 1 ∨ op = 2 ∨ op = 3 ∨ op = 4 ∨ op = 5 ∨ op = 6 ∨ op = 7 ∨ op = 8 := by bv_omega
  rcases hop with rfl | rfl | rfl | rfl | rfl | rfl | rfl | rfl
  · obtain ⟨rfl, rfl⟩ := hRI (by decide)
    exact ⟨.alloc rd idx, rfl, (Instr.wf_iff_of_one rfl).mpr hrd⟩
  · obtain ⟨rfl, rfl, rfl⟩ := hR1 (by decide)
    exact ⟨.free rd, rfl, (Instr.wf_iff_of_one rfl).mpr hrd⟩
  · obtain ⟨rfl, rfl⟩ := hR2 (by decide)
    exact ⟨.copy rd rs, rfl, (Instr.wf_iff_of_two rfl).mpr ⟨hrd, hrs (by decide)⟩⟩
  · obtain rfl := hRIV (by decide)
    exact ⟨.setd rd idx val, rfl, (Instr.wf_iff_of_one rfl).mpr hrd⟩
  · obtain ⟨rfl, rfl⟩ := hRI (by decide)
    exact ⟨.getd rd idx, rfl, (Instr.wf_iff_of_one rfl).mpr hrd⟩
  · obtain ⟨rfl, rfl, rfl⟩ := hR1 (by decide)
    exact ⟨.sign rd, rfl, (Instr.wf_iff_of_one rfl).mpr hrd⟩
  · obtain ⟨rfl, rfl⟩ := hR2 (by decide)
    exact ⟨.add rd rs, rfl, (Instr.wf_iff_of_two rfl).mpr ⟨hrd, hrs (by decide)⟩⟩
  · obtain ⟨rfl, rfl, rfl⟩ := hR1 (by decide)
    exact ⟨.cvt rd, rfl, (Instr.wf_iff_of_one rfl).mpr hrd⟩

theorem exists_decode_error_iff : (∃ why, decode nv word = .error why) ↔ IllegalWord nv word := by
  constructor
  · rintro ⟨why, hwhy⟩
    by_contra hlegal
    obtain ⟨i, hi⟩ := exists_decode_of_not_illegalWord hlegal
    rw [hwhy] at hi
    cases hi
  · intro hillegal
    cases hdecode : decode nv word with
    | ok i => exact absurd hillegal (not_illegalWord_of_decode hdecode)
    | error why => exact ⟨why, rfl⟩

end Sys2Proof
end

section
/-! PROOFS. The steps of PDA, one equation per action of the host (spec/30_encoding.md R60, R65;
spec/70_reset_and_hazards.md R193, R200; log entry 6), and what follows for commands and responses. -/

open Sys2Proof.Spec

namespace Sys2Proof.Machine

variable {s t : State} {word : CommandWord} {rest : List HostAction}

/-! ### One equation per action -/

theorem step_idle (hhost : s.host = []) : step s = .next s := by
  simp [step, hhost]

theorem step_command_ready (hhost : s.host = .command word :: rest) (hready : s.response = none) :
    step s = (s.hostDone rest).runWord word := by
  simp [step, hhost, hready]

theorem step_command_waits (hhost : s.host = .command word :: rest) (hpending : s.response ≠ none) :
    step s = .next s := by
  simp [step, hhost, hpending]

theorem step_take_delivers (hhost : s.host = .takeResponse :: rest) (hpending : s.response ≠ none) :
    step s = .next (s.hostDone rest).deliver := by
  simp [step, hhost, Option.isSome_iff_ne_none.mpr hpending]

theorem step_take_waits (hhost : s.host = .takeResponse :: rest) (hnone : s.response = none) :
    step s = .next s := by
  simp [step, hhost, hnone]

theorem runWord_of_decode {i : Instr} (h : decode s.cfg.nv word = .ok i) : s.runWord word = exec i s := by
  simp [State.runWord, h]

theorem runWord_of_illegalWord (h : IllegalWord s.cfg.nv word) :
    s.runWord word = .next (s.answer .errIllegal 0) := by
  obtain ⟨why, hwhy⟩ := exists_decode_error_iff.mpr h
  simp [State.runWord, hwhy, State.raise]

/-! ### Accepted words -/

/-- Settles O29: the parameters the word is decoded with are no matter of the host's actions. -/
theorem stepRunsDecodedCommand : Obligations.StepRunsDecodedCommand := fun _ _ _ _ hhost hready hdecode =>
  (step_command_ready hhost hready).trans (runWord_of_decode hdecode)

/-- Settles O5: the illegal words are those the decoder refuses. -/
theorem illegalWordsAreAnsweredIllegal : Obligations.IllegalWordsAreAnsweredIllegal :=
  fun _ _ _ hhost hready =>
    ⟨fun hillegal => (step_command_ready hhost hready).trans (runWord_of_illegalWord hillegal),
      exists_decode_of_not_illegalWord⟩

/-- A command that completes is answered, and leaves the host's actions and the responses taken as they were (R60). -/
theorem exec_answers {i : Instr} (h : exec i s = .next t) :
    t.response ≠ none ∧ t.host = s.host ∧ t.delivered.length = s.delivered.length := by
  obtain ⟨regs, acc, a, n, rfl, -⟩ := exec_frame h
  exact ⟨Option.some_ne_none a, rfl, rfl⟩

/-- The same for every accepted word, legal or not (R60, R65). -/
theorem runWord_answers (h : s.runWord word = .next t) :
    t.response ≠ none ∧ t.host = s.host ∧ t.delivered.length = s.delivered.length := by
  unfold State.runWord at h
  split at h
  · exact exec_answers h
  · cases h
    exact ⟨nofun, rfl, rfl⟩

/-! ### The handshake -/

/-- Settles O30, each clause by the equation of its action. -/
theorem handshakeOrdersCommandsAndResponses : Obligations.HandshakeOrdersCommandsAndResponses := by
  refine fun s rest => ⟨fun word a hhost ha => ?_, fun a hhost ha => ?_, step_take_waits, step_idle⟩
  · exact step_command_waits hhost (by simp [ha])
  · rw [step_take_delivers hhost (by simp [ha])]
    simp [ha]

theorem responsesMade_deliver (s : State) : responsesMade s.deliver = responsesMade s := by
  simp [responsesMade]

/-- Settles O31: the accepted word is answered on a channel that was free, a delivery moves a response from the channel
to those delivered, and every other step changes nothing. -/
theorem oneResponsePerAcceptedCommand : Obligations.OneResponsePerAcceptedCommand := by
  intro s t rest h
  refine ⟨fun word hhost hready => ?_, fun word hhost hpending => ?_, fun hhost => ?_, fun hhost => ?_⟩
  · rw [step_command_ready hhost hready] at h
    obtain ⟨hpending, -, hdelivered⟩ := runWord_answers h
    obtain ⟨a, ha⟩ := Option.ne_none_iff_exists'.mp hpending
    simp [responsesMade, hready, ha, hdelivered]
  · rw [step_command_waits hhost hpending] at h
    cases h
    rfl
  · by_cases hpending : s.response = none
    · rw [step_take_waits hhost hpending] at h
      cases h
      rfl
    · rw [step_take_delivers hhost hpending] at h
      cases h
      exact responsesMade_deliver (s.hostDone rest)
  · rw [step_idle hhost] at h
    cases h
    rfl

/-- Settles O41: the command's word decodes to it, its response is then pending, and the take is the next action. -/
theorem commandAndTakeAreTwoSteps : Obligations.CommandAndTakeAreTwoSteps := by
  intro s t i rest hwf hready hexec
  have hword : step { s with host := .command (encode i) :: .takeResponse :: rest } = .next t :=
    (stepRunsDecodedCommand (s.hostDone (.command (encode i) :: .takeResponse :: rest)) _ _ i rfl hready
      (decode_encode hwf)).trans hexec
  obtain ⟨hpending, hhost, -⟩ := exec_answers hexec
  exact ⟨t, hword, step_take_delivers hhost hpending⟩

end Sys2Proof.Machine
end

section
/-! PROOFS. Every command of a legal state is answered, or has no meaning where a parameter says `refuse`
(spec/30_encoding.md R60; spec/42_bcd_ripple_adder.md R119; spec/43_bcd_digit_accumulator.md R138). -/

namespace Sys2Proof.Machine

variable {s t : State} {c : Config}

/-- The result is a next state, or a refusal that a parameter of `c` asks for; it is no fault. -/
def GoesOnOrDeclines (c : Config) (x : Result) : Prop :=
  (∃ t, x = .next t) ∨ x = .refused .accumulatorOverflow ∧ c.accOverflow = .refuse ∨
    x = .refused .spareSlotOverflow ∧ c.setdOverflow = .refuse

namespace GoesOnOrDeclines

theorem next (t : State) : GoesOnOrDeclines c (.next t) := .inl ⟨t, rfl⟩

theorem ite {p : Prop} [Decidable p] {x y : Result} (hx : p → GoesOnOrDeclines c x)
    (hy : ¬ p → GoesOnOrDeclines c y) : GoesOnOrDeclines c (if p then x else y) := by
  split
  · next h => exact hx h
  · next h => exact hy h

theorem ifLegal (rs : List RegNum) {k : Result} (hk : GoesOnOrDeclines c k) : GoesOnOrDeclines c (s.ifLegal rs k) :=
  ite (fun _ => hk) fun _ => next _

theorem withValue (r : RegNum) {k : PackedDecimal s.cfg.w → Result}
    (hk : ∀ v, s.reg? r = some (some v) → GoesOnOrDeclines c (k v)) : GoesOnOrDeclines c (s.withValue r k) := by
  unfold State.withValue
  split
  · exact next _
  · exact next _
  · next v hv => exact hk v hv

/-- In a legal state every record holds the words its counts name, so there is no fault (log entry 8). -/
theorem withDigits (hs : s.Inv) (r : RegNum) {k : PackedDecimal s.cfg.w → Result}
    (hk : ∀ v, GoesOnOrDeclines c (k v)) : GoesOnOrDeclines c (s.withDigits r k) :=
  withValue r fun v hv => ite (fun _ => hk v) fun hincoherent => absurd (hs.coherent hv) hincoherent

end GoesOnOrDeclines

/-- ADD on the values stops only where the final-carry sum does under `setd_overflow = refuse` (R119). -/
theorem addValue_error {w : Nat} {mode : SetdOverflow} {self : PackedDecimal w} {other : Option (PackedDecimal w)}
    {e : Refusal} (h : addValue mode self other = .error e) : e = .spareSlotOverflow ∧ mode = .refuse := by
  unfold addValue addFinalCarry at h
  dsimp only at h
  split at h
  · split at h
    · next hrefuse =>
      cases h
      exact ⟨rfl, hrefuse.2⟩
    · cases h
  · cases h

open GoesOnOrDeclines in
/-- From a legal state every command completes, but for CVT and ADD where a parameter says `refuse` (R198). -/
theorem exec_goesOnOrDeclines (hs : s.Inv) (i : Instr) : GoesOnOrDeclines s.cfg (exec i s) := by
  cases i with
  | alloc rd dc => exact ifLegal [rd] (ite (fun _ => next _) fun _ => ite (fun _ => next _) fun _ => next _)
  | free rd => exact ifLegal [rd] (withValue rd fun _ _ => next _)
  | copy rd rs => exact ifLegal [rd, rs] (withValue rs fun _ _ => ite (fun _ => next _) fun _ => next _)
  | setd rd idx val => exact ifLegal [rd] (withDigits hs rd fun _ => ite (fun _ => next _) fun _ => next _)
  | getd rd idx => exact ifLegal [rd] (withDigits hs rd fun _ => ite (fun _ => next _) fun _ => next _)
  | sign rd => exact ifLegal [rd] (withDigits hs rd fun _ => next _)
  | add rd rs =>
    refine ifLegal [rd, rs] (withDigits hs rd fun a => withDigits hs rs fun b => ?_)
    split
    · exact next _
    · next e he =>
      obtain ⟨rfl, hrefuse⟩ := addValue_error he
      exact .inr (.inr ⟨rfl, hrefuse⟩)
  | cvt rd =>
    exact ifLegal [rd] (withDigits hs rd fun _ => ite (fun hrefuse => .inr (.inl ⟨rfl, hrefuse.1⟩)) fun _ => next _)

theorem step_goesOnOrDeclines (hs : s.Inv) : GoesOnOrDeclines s.cfg (step s) := by
  unfold step
  split
  · exact .next _
  · exact .next _
  · next word rest _ =>
    refine .ite (fun _ => ?_) fun _ => .next _
    unfold State.runWord
    split
    · exact exec_goesOnOrDeclines (hs.hostDone rest) _
    · exact .next _
  · exact .ite (fun _ => .next _) fun _ => .next _

/-- Settles O38: the first three clauses read off `step_goesOnOrDeclines`, the last is `runWord_answers`. -/
theorem everyAcceptedCommandIsAnswered : Obligations.EveryAcceptedCommandIsAnswered := by
  intro s hs
  have hprogress := step_goesOnOrDeclines hs
  refine ⟨fun f hf => ?_, fun r hr => ?_, fun hwrap htruncate => ?_, fun word rest t hhost hready h => ?_⟩
  · simp [GoesOnOrDeclines, hf] at hprogress
  · simpa [GoesOnOrDeclines, hr] using hprogress
  · simpa [GoesOnOrDeclines, SafeStep, hwrap, htruncate] using hprogress
  · rw [step_command_ready hhost hready] at h
    obtain ⟨hpending, hrest, -⟩ := runWord_answers h
    exact ⟨by rwa [State.answer?, Option.isSome_map, Option.isSome_iff_ne_none], hrest⟩

end Sys2Proof.Machine
end

section
/-! PROOFS. The assembler text of a command reads back as the command (spec/30_encoding.md R69): the numbers in it read
back, and the line falls apart into the mnemonic and the operand texts it was joined from. -/

namespace Sys2Proof.Machine

/-! ### Numbers and registers -/

theorem toNat_of_isDigit {c : Char} (h : c.isDigit = true) : 48 ≤ c.toNat ∧ c.toNat ≤ 57 := by
  simpa [Char.isDigit, UInt32.le_iff_toNat_le] using h

theorem hexValue_of_isDigit {c : Char} (h : c.isDigit = true) : hexValue c = some (c.toNat - 48) :=
  if_pos (toNat_of_isDigit h)

/-- One turn of `readDigits`: the number read so far, then one more character. -/
def readDigit (base : Nat) (acc : Option Nat) (c : Char) : Option Nat :=
  acc.bind fun n => (hexValue c).bind fun d => if d < base then some (base * n + d) else none

theorem readDigits_of_ne_nil {cs : List Char} (h : cs ≠ []) (base : Nat) :
    readDigits base cs = cs.foldl (readDigit base) (some 0) :=
  if_neg (by simpa using h)

theorem foldl_readDigit {cs : List Char} (h : ∀ c ∈ cs, c.isDigit = true) (n : Nat) :
    cs.foldl (readDigit 10) (some n) = some (Nat.ofDigitChars 10 cs n) := by
  induction cs generalizing n with
  | nil => rfl
  | cons c cs ih =>
    obtain ⟨hc, hcs⟩ := List.forall_mem_cons.mp h
    have hlt : c.toNat - 48 < 10 := by have := toNat_of_isDigit hc; omega
    have hturn : readDigit 10 (some n) c = some (10 * n + (c.toNat - 48)) := by
      simp [readDigit, hexValue_of_isDigit hc, hlt]
    rw [List.foldl_cons, hturn, ih hcs, Nat.ofDigitChars_cons]
    rfl

theorem isDigit_of_mem_decimal {n : Nat} {c : Char} (h : c ∈ Nat.toDigits 10 n) : c.isDigit = true :=
  Nat.isDigit_of_mem_toDigits (by decide) (by decide) h

theorem readDigits_toDigits (n : Nat) : readDigits 10 (Nat.toDigits 10 n) = some n := by
  rw [readDigits_of_ne_nil Nat.toDigits_ne_nil, foldl_readDigit fun _ => isDigit_of_mem_decimal,
    Nat.ofDigitChars_ten_toDigits]

/-- Decimal text has no `x` in it, so it is not read as hexadecimal. -/
theorem readUnsigned_toDigits (n : Nat) : readUnsigned (Nat.toDigits 10 n) = some n := by
  unfold readUnsigned
  split
  · next rest htext =>
    have hx : 'x' ∈ Nat.toDigits 10 n := by simp [htext]
    exact absurd (isDigit_of_mem_decimal hx) (by decide)
  · exact readDigits_toDigits n

theorem readNumber_toDigits {most n : Nat} (h : n ≤ most) : readNumber most (Nat.toDigits 10 n) = some n := by
  simp [readNumber, readUnsigned_toDigits, h]

theorem readRegister_registerText (r : RegNum) : readRegister (registerText r) = some r := by
  have hle : r.toNat ≤ 15 := Nat.le_of_lt_succ r.isLt
  simp [readRegister, registerText, readDigits_toDigits, hle]

theorem readCommand_operandTexts (i : Instr) : readCommand (mnemonicText i) (operandTexts i) = some i := by
  have hindex (x : Index) : readNumber 65535 (Nat.toDigits 10 x.toNat) = some x.toNat :=
    readNumber_toDigits (Nat.le_of_lt_succ x.isLt)
  have hdigit (x : Digit) : readNumber 15 (Nat.toDigits 10 x.toNat) = some x.toNat :=
    readNumber_toDigits (Nat.le_of_lt_succ x.isLt)
  cases i with
  | alloc | free | copy | setd | getd | sign | add | cvt =>
    simp [readCommand, mnemonicText, operandTexts, readRegister_registerText, hindex, hdigit]

/-! ### Texts without separators -/

/-- A mnemonic or an operand as the assembler writes it: not empty, and none of the characters that separate. -/
def PlainText (cs : List Char) : Prop := cs ≠ [] ∧ ∀ c ∈ cs, c ≠ ' ' ∧ c ≠ ',' ∧ c ≠ ';'

theorem ne_separator_of_isDigit {c : Char} (h : c.isDigit = true) : c ≠ ' ' ∧ c ≠ ',' ∧ c ≠ ';' := by
  refine ⟨?_, ?_, ?_⟩ <;> (rintro rfl; exact absurd h (by decide))

theorem plainText_toDigits (n : Nat) : PlainText (Nat.toDigits 10 n) :=
  ⟨Nat.toDigits_ne_nil, fun _ hc => ne_separator_of_isDigit (isDigit_of_mem_decimal hc)⟩

theorem plainText_registerText (r : RegNum) : PlainText (registerText r) :=
  ⟨List.cons_ne_nil _ _, List.forall_mem_cons.mpr ⟨by decide, (plainText_toDigits r.toNat).2⟩⟩

theorem plainText_mnemonicText (i : Instr) : PlainText (mnemonicText i) := by
  unfold PlainText
  cases i with
  | alloc | free | copy | setd | getd | sign | add | cvt => simp [mnemonicText]

theorem plainText_operandTexts (i : Instr) : ∀ cs ∈ operandTexts i, PlainText cs := by
  cases i with
  | alloc | free | copy | setd | getd | sign | add | cvt =>
    simp [operandTexts, plainText_registerText, plainText_toDigits]

namespace PlainText

variable {cs : List Char}

theorem head?_ne_space (h : PlainText cs) : cs.head? ≠ some ' ' := fun hc => (h.2 _ (List.mem_of_head? hc)).1 rfl

theorem getLast?_ne_space (h : PlainText cs) : cs.getLast? ≠ some ' ' :=
  fun hc => (h.2 _ (List.mem_of_getLast? hc)).1 rfl

theorem comma_notMem (h : PlainText cs) : ',' ∉ cs := fun hc => (h.2 _ hc).2.1 rfl

theorem semicolon_notMem (h : PlainText cs) : ';' ∉ cs := fun hc => (h.2 _ hc).2.2 rfl

theorem decide_ne_space (h : PlainText cs) : ∀ c ∈ cs, decide (c ≠ ' ') = true :=
  fun c hc => decide_eq_true (h.2 c hc).1

theorem takeWhile_append_space (h : PlainText cs) (rest : List Char) :
    (cs ++ ' ' :: rest).takeWhile (· ≠ ' ') = cs := by
  rw [List.takeWhile_append_of_pos h.decide_ne_space]
  exact List.append_nil cs

theorem dropWhile_append_space (h : PlainText cs) (rest : List Char) :
    (cs ++ ' ' :: rest).dropWhile (· ≠ ' ') = ' ' :: rest := by
  rw [List.dropWhile_append_of_pos h.decide_ne_space]
  rfl

end PlainText

/-! ### Cutting a line -/

theorem dropWhile_space_eq_self {cs : List Char} (h : cs.head? ≠ some ' ') : cs.dropWhile (· == ' ') = cs := by
  cases cs with
  | nil => rfl
  | cons c cs => simpa using h

theorem trimSpaces_eq_self {cs : List Char} (hhead : cs.head? ≠ some ' ') (hlast : cs.getLast? ≠ some ' ') :
    trimSpaces cs = cs := by
  rw [trimSpaces, dropWhile_space_eq_self hhead, dropWhile_space_eq_self (by rwa [List.head?_reverse]),
    List.reverse_reverse]

theorem trimSpaces_space_cons (cs : List Char) : trimSpaces (' ' :: cs) = trimSpaces cs := rfl

theorem splitCommas_eq_singleton {cs : List Char} (h : ',' ∉ cs) : splitCommas cs = [cs] := by
  induction cs with
  | nil => rfl
  | cons c cs ih =>
    obtain ⟨hc, hcs⟩ := not_or.mp (mt List.mem_cons.mpr h)
    simp [splitCommas, ih hcs, Ne.symm hc]

theorem splitCommas_append_comma {cs : List Char} (h : ',' ∉ cs) (rest : List Char) :
    splitCommas (cs ++ ',' :: rest) = cs :: splitCommas rest := by
  induction cs with
  | nil => rfl
  | cons c cs ih =>
    obtain ⟨hc, hcs⟩ := not_or.mp (mt List.mem_cons.mpr h)
    simp [splitCommas, ih hcs, Ne.symm hc]

/-- The operands as the assembler joins them. -/
def joined (operands : List (List Char)) : List Char := [',', ' '].intercalate operands

theorem joined_cons_cons (a b : List Char) (operands : List (List Char)) :
    joined (a :: b :: operands) = a ++ ',' :: ' ' :: joined (b :: operands) := by
  simp [joined, List.intercalate_cons_cons]

theorem joined_singleton (a : List Char) : joined [a] = a := List.intercalate_singleton

/-- Joined operands, with the space that follows the mnemonic, are cut into the operands with one space before each. -/
theorem splitCommas_joined {a : List Char} {operands : List (List Char)} (h : ∀ cs ∈ a :: operands, PlainText cs) :
    splitCommas (' ' :: joined (a :: operands)) = (a :: operands).map (' ' :: ·) := by
  have hspace {cs : List Char} (hcs : PlainText cs) : ',' ∉ ' ' :: cs := by simpa using hcs.comma_notMem
  induction operands generalizing a with
  | nil =>
    rw [joined_singleton]
    exact splitCommas_eq_singleton (hspace (h a List.mem_cons_self))
  | cons b operands ih =>
    obtain ⟨ha, hrest⟩ := List.forall_mem_cons.mp h
    rw [joined_cons_cons, ← List.cons_append, splitCommas_append_comma (hspace ha), ih hrest]
    rfl

theorem semicolon_notMem_joined {operands : List (List Char)} (h : ∀ cs ∈ operands, PlainText cs) :
    ';' ∉ joined operands := by
  induction operands with
  | nil => exact List.not_mem_nil
  | cons a operands ih =>
    obtain ⟨ha, hrest⟩ := List.forall_mem_cons.mp h
    cases operands with
    | nil => rw [joined_singleton]; exact ha.semicolon_notMem
    | cons b operands =>
      rw [joined_cons_cons]
      simp [ha.semicolon_notMem, ih hrest]

/-- Joined operands end with one of them. -/
theorem exists_suffix_joined (a : List Char) (operands : List (List Char)) :
    ∃ cs ∈ a :: operands, cs <:+ joined (a :: operands) := by
  induction operands generalizing a with
  | nil => exact ⟨a, List.mem_cons_self, by rw [joined_singleton]⟩
  | cons b operands ih =>
    obtain ⟨cs, hmem, hsuffix⟩ := ih b
    refine ⟨cs, List.mem_cons_of_mem a hmem, ?_⟩
    rw [joined_cons_cons]
    exact hsuffix.trans ((List.suffix_append [',', ' '] _).trans (List.suffix_append a _))

theorem trimSpaces_line {mnemonic : List Char} (hm : PlainText mnemonic) {a : List Char} {operands : List (List Char)}
    (h : ∀ cs ∈ a :: operands, PlainText cs) :
    trimSpaces (mnemonic ++ ' ' :: joined (a :: operands)) = mnemonic ++ ' ' :: joined (a :: operands) := by
  apply trimSpaces_eq_self
  · rw [List.head?_append_of_ne_nil _ hm.1]
    exact hm.head?_ne_space
  · obtain ⟨cs, hmem, hsuffix⟩ := exists_suffix_joined a operands
    obtain ⟨before, hbefore⟩ := hsuffix.trans ((List.suffix_cons ' ' _).trans (List.suffix_append mnemonic _))
    rw [← hbefore, List.getLast?_append_of_ne_nil _ (h cs hmem).1]
    exact (h cs hmem).getLast?_ne_space

/-- A line of a mnemonic and operands without separators of their own is read as the command of those texts (R69). -/
theorem readLine_joined {mnemonic : List Char} {operands : List (List Char)} (hm : PlainText mnemonic)
    (hne : operands ≠ []) (h : ∀ cs ∈ operands, PlainText cs) :
    readLine (mnemonic ++ ' ' :: joined operands) = (readCommand mnemonic operands).map some := by
  obtain ⟨a, operands, rfl⟩ := List.exists_cons_of_ne_nil hne
  have hcode : (mnemonic ++ ' ' :: joined (a :: operands)).takeWhile (· ≠ ';') =
      mnemonic ++ ' ' :: joined (a :: operands) := by
    have hsemicolon : ';' ∉ mnemonic ++ ' ' :: joined (a :: operands) := by
      simp [hm.semicolon_notMem, semicolon_notMem_joined h]
    refine List.takeWhile_eq_self_iff.mpr fun c hc => ?_
    simpa using ne_of_mem_of_not_mem hc hsemicolon
  have hoperands : ((a :: operands).map (' ' :: ·)).map trimSpaces = a :: operands := by
    rw [List.map_map]
    refine (List.map_congr_left fun cs hcs => ?_).trans (List.map_id _)
    exact (trimSpaces_space_cons cs).trans
      (trimSpaces_eq_self (h cs hcs).head?_ne_space (h cs hcs).getLast?_ne_space)
  unfold readLine
  simp only [hcode, trimSpaces_line hm h, hm.takeWhile_append_space, hm.dropWhile_append_space,
    splitCommas_joined h, hoperands]
  exact if_neg (by simp)

theorem operandTexts_ne_nil (i : Instr) : operandTexts i ≠ [] := by
  cases i with
  | alloc | free | copy | setd | getd | sign | add | cvt => exact List.cons_ne_nil _ _

/-- Settles O44: the assembler's mnemonics and operands have no separators of their own, and each reads back. -/
theorem assemblyTextReadsBack : Obligations.AssemblyTextReadsBack := by
  intro i
  calc readLine (assemblyText i)
    _ = (readCommand (mnemonicText i) (operandTexts i)).map some :=
      readLine_joined (plainText_mnemonicText i) (operandTexts_ne_nil i) (plainText_operandTexts i)
    _ = some (some i) := by rw [readCommand_operandTexts]; rfl

end Sys2Proof.Machine
end

section
/-! PROOFS. The digit_field_unpacker (spec/40_digit_field_unpacker.md): where a digit lies (R80, R81), what reading and
writing one does to its record (R82, R83, R91), and every outcome of GETD, SETD and SIGN (R85 to R87). -/

open Sys2Proof.Spec

namespace Sys2Proof.Machine

variable {s : State}

theorem Config.w_mod_four {c : Config} (h : c.wf = true) : c.w % 4 = 0 := by
  simp only [Config.wf, Bool.and_eq_true, decide_eq_true_eq] at h
  omega

/-! ### One digit of one record -/

namespace PackedDecimal

variable {w : Nat} {v : PackedDecimal w}

theorem addressable_iff {i : Nat} : v.addressable i = true ↔ i < v.wc * digitsPerWord w := decide_eq_true_iff

theorem not_addressable_of_le {i : Nat} (h : v.wc * digitsPerWord w ≤ i) : ¬ v.addressable i = true :=
  fun hi => (addressable_iff.mp hi).not_ge h

theorem buf_length_of_coherent (hc : v.coherent = true) : v.buf.length = v.wc := by
  simp only [coherent, Bool.and_eq_true, decide_eq_true_eq] at hc
  exact hc.1

/-- A record is its counts, its number of words and its digits: every bit of a word belongs to a digit (R42). -/
theorem ext_getDigit (hw : w % 4 = 0) {u v : PackedDecimal w} (hdc : u.dc = v.dc) (hwc : u.wc = v.wc)
    (hlength : u.buf.length = v.buf.length) (h : ∀ i, u.getDigit i = v.getDigit i) : u = v :=
  ext_memRead hdc hwc hlength fun k _ => memRead_eq_of_getDigit hw h k

/-- A digit is a slice of its word's number (R41, R82). -/
theorem getDigit_toNat (v : PackedDecimal w) (i : Nat) : (v.getDigit i).toNat =
    (v.memRead (wordIndex (digitsPerWord w) i)).toNat / 2 ^ bitOffset (digitsPerWord w) i % 16 := by
  unfold getDigit
  rw [getField_eq_ofNat, BitVec.toNat_ofNat]

/-- R91 (c): the second write to one index replaces the first. -/
theorem setDigit_setDigit_same (hw : w % 4 = 0) (h4 : 4 ≤ w) (u d : Digit) {i : Nat}
    (hi : wordIndex (digitsPerWord w) i < v.buf.length) : (v.setDigit u i).setDigit d i = v.setDigit d i := by
  refine ext_getDigit hw rfl rfl (by simp) fun k => ?_
  rw [getDigit_setDigit _ h4 _ _ _ (by simpa using hi), getDigit_setDigit _ h4 _ _ _ hi,
    getDigit_setDigit _ h4 _ _ _ hi]
  split <;> rfl

/-- R91 (d): writes to different indices commute. -/
theorem setDigit_comm (hw : w % 4 = 0) (h4 : 4 ≤ w) (u d : Digit) {i j : Nat} (hij : j ≠ i)
    (hi : wordIndex (digitsPerWord w) i < v.buf.length) (hj : wordIndex (digitsPerWord w) j < v.buf.length) :
    (v.setDigit u i).setDigit d j = (v.setDigit d j).setDigit u i := by
  refine ext_getDigit hw rfl rfl (by simp) fun k => ?_
  rw [getDigit_setDigit _ h4 _ _ _ (by simpa using hj), getDigit_setDigit _ h4 _ _ _ hi,
    getDigit_setDigit _ h4 _ _ _ (by simpa using hi), getDigit_setDigit _ h4 _ _ _ hj]
  by_cases hik : i = k
  · rw [if_pos hik, if_pos hik, if_neg (hik ▸ hij)]
  · rw [if_neg hik, if_neg hik]

end PackedDecimal

/-- Settles O6: a digit's field lies inside its word, and its word exists when the index is below `wc * DPW`. -/
theorem digitIndexNamesWordAndOffset : Obligations.DigitIndexNamesWordAndOffset := by
  intro c hc v i
  have hword : wordIndex c.dpw i < v.wc ↔ i < v.wc * c.dpw := Nat.div_lt_iff_lt_mul (Config.dpw_pos hc)
  exact ⟨rfl, Nat.dvd_mul_right 4 _, Nat.le_sub_of_add_le (bitOffset_le (Config.four_le hc) i), rfl,
    PackedDecimal.addressable_iff.trans hword.symm, hword⟩

/-- Settles O7, from the laws of one field of one word. -/
theorem digitIsSliceOfItsWord : Obligations.DigitIsSliceOfItsWord := by
  intro c v d i hc hv hi
  have h4 := Config.four_le hc
  have hword := v.addressable_word h4 hv hi
  refine ⟨v.getDigit_toNat i, ?_, fun j hj => ?_⟩
  · exact (congrArg BitVec.toNat ((v.memRead_setDigit d i _ hword).trans (if_pos rfl))).trans
      (setField_toNat _ d _ (bitOffset_le h4 i))
  · exact (v.memRead_setDigit d i j hword).trans (if_neg hj.symm)

/-- Settles O8: R91 (a) to (d) on the record, its frame over the registers, and (e), GETD writes only the response. -/
theorem fieldWriteLaws : Obligations.FieldWriteLaws := by
  refine ⟨fun c v u d i j hc hv hi hj => ?_, fun s r r' v d i _ hr => State.sameRegister_of ?_,
    fun s t rd idx h => ?_⟩
  · have h4 := Config.four_le hc
    have hw := Config.w_mod_four hc
    have hiword := v.addressable_word h4 hv hi
    have hjword := v.addressable_word h4 hv hj
    exact ⟨v.getDigit_setDigit_same h4 d i hiword, fun hij => v.getDigit_setDigit_ne h4 d hij.symm hiword,
      PackedDecimal.setDigit_setDigit_same hw h4 u d hiword,
      fun hij => PackedDecimal.setDigit_comm hw h4 u d hij hiword hjword⟩
  · exact Vector.getElem?_setIfInBounds_ne fun h => hr (BitVec.eq_of_toNat_eq h.symm)
  · rcases execGetd_cases h with ⟨v, -, -, -, rfl⟩ | ⟨e, -, rfl⟩
    · exact ⟨_, rfl⟩
    · exact ⟨_, rfl⟩

/-! ### A command on the digits of one register -/

/-- A register number not below `NV` (R65 (c)). -/
theorem digitCommand_illegal {rd : RegNum} (k : PackedDecimal s.cfg.w → Result) (hrd : s.cfg.nv ≤ rd.toNat) :
    s.ifLegal [rd] (s.withDigits rd k) = .next (s.answer .errIllegal 0) :=
  State.ifLegal_illegal ⟨rd, List.mem_singleton_self rd, hrd⟩

/-- A register that holds no value (R172). -/
theorem digitCommand_unalloc {rd : RegNum} (k : PackedDecimal s.cfg.w → Result) (hrd : rd.toNat < s.cfg.nv)
    (hvalid : s.valid rd = false) : s.ifLegal [rd] (s.withDigits rd k) = .next (s.answer .errUnalloc 0) := by
  rw [State.ifLegal_of (by simpa [RegNum.legal] using hrd), State.withDigits_none k (State.reg?_of_not_valid hrd hvalid)]
  rfl

/-- In a legal state a command on a valid register goes on with the value the register holds. -/
theorem State.Inv.digitCommand_of (hs : s.Inv) {rd : RegNum} {v : PackedDecimal s.cfg.w} (hv : s.value? rd = some v)
    (k : PackedDecimal s.cfg.w → Result) : s.ifLegal [rd] (s.withDigits rd k) = k v := by
  have hreg := (State.value?_eq_some_iff rd v).mp hv
  rw [State.ifLegal_of (by simpa [RegNum.legal] using State.lt_of_reg? hreg),
    State.withDigits_of k hreg (hs.coherent hreg)]

theorem State.Inv.execGetd_eq (hs : s.Inv) {rd : RegNum} {v : PackedDecimal s.cfg.w} (hv : s.value? rd = some v)
    (idx : Index) : execGetd rd idx s =
      if v.addressable idx.toNat = true then .next (s.answer .ok ((v.getDigit idx.toNat).setWidth s.cfg.accw))
      else .next (s.answer .errRange 0) := hs.digitCommand_of hv _

theorem State.Inv.execSetd_eq (hs : s.Inv) {rd : RegNum} {v : PackedDecimal s.cfg.w} (hv : s.value? rd = some v)
    (idx : Index) (val : Digit) : execSetd rd idx val s =
      if v.addressable idx.toNat = true then .next ((s.setReg rd (some (v.setDigit val idx.toNat))).answer .ok 0)
      else .next (s.answer .errRange 0) := hs.digitCommand_of hv _

theorem State.Inv.execSign_eq (hs : s.Inv) {rd : RegNum} {v : PackedDecimal s.cfg.w} (hv : s.value? rd = some v) :
    execSign rd s = .next (s.answer .ok (v.sign.setWidth s.cfg.accw)) := hs.digitCommand_of hv _

/-! ### The commands that read -/

/-- Settles O9: past the checks, addressable decides between the digit and ERR_RANGE. -/
theorem getdReadsOneDigit : Obligations.GetdReadsOneDigit := by
  refine fun s rd idx hs =>
    ⟨digitCommand_illegal _, digitCommand_unalloc _, fun wc hwc hidx => ?_, fun wc hwc hidx => ?_⟩
  · obtain ⟨v, hv, rfl⟩ := State.exists_of_wordCount? hwc
    exact (hs.execGetd_eq hv idx).trans (if_neg (PackedDecimal.not_addressable_of_le hidx))
  · obtain ⟨v, hv, rfl⟩ := State.exists_of_wordCount? hwc
    have hin : v.addressable idx.toNat = true := PackedDecimal.addressable_iff.mpr hidx
    have hc := hs.coherent ((State.value?_eq_some_iff rd v).mp hv)
    exact ⟨v.getDigit idx.toNat, (State.digitAt_eq (Config.four_le hs.1) hv hc _).trans (if_pos hin),
      (hs.execGetd_eq hv idx).trans (if_pos hin)⟩

/-- Settles O11: the sign slot is the digit of index `dc`, which is addressable in a legal state. -/
theorem signReadsSignSlot : Obligations.SignReadsSignSlot := by
  refine fun s rd hs => ⟨digitCommand_illegal _, digitCommand_unalloc _, fun dc hdc => ?_⟩
  obtain ⟨v, hv, rfl⟩ := State.exists_of_digitCount? hdc
  have hsign := hs.execSign_eq hv
  have hgetd : execGetd rd v.dc s = .next (s.answer .ok (v.sign.setWidth s.cfg.accw)) :=
    (hs.execGetd_eq hv v.dc).trans (if_pos (hs.addressable hv le_rfl))
  refine ⟨v.sign, hs.digitAt_eq hv le_rfl, hsign, ?_⟩
  rw [BitVec.ofNat_toNat, BitVec.setWidth_eq]
  exact hsign.trans hgetd.symm

/-! ### The command that writes -/

/-- The words a coherent record reads as are those that its word count names (R40). -/
theorem State.wordAt_eq {r : RegNum} {v : PackedDecimal s.cfg.w} (hr : s.value? r = some v) (hc : v.coherent = true)
    (k : Nat) : s.wordAt r k = if k < v.wc then some (v.memRead k).toNat else none := by
  by_cases hk : k < v.wc
  · have hlength : k < v.buf.length := by rwa [PackedDecimal.buf_length_of_coherent hc]
    rw [State.wordAt_of_value? hr hk, if_pos hk]
    simp [PackedDecimal.memRead, hlength]
  · simp [State.wordAt, hr, hk]

/-- Writing one register and answering keeps all that is not that register (R21). -/
theorem othersKept_setReg (s : State) (rd : RegNum) (v : Option (PackedDecimal s.cfg.w)) (e : Status)
    (d : BitVec s.cfg.accw) : OthersKept s ((s.setReg rd v).answer e d) rd :=
  ⟨fun _ hr => State.sameRegister_setReg (n := 0) hr, rfl, rfl, rfl, rfl⟩

/-- The register that a command writes reads as what was written. -/
theorem State.value?_setReg_answer {r : RegNum} {u : Option (PackedDecimal s.cfg.w)} (hr : s.reg? r = some u)
    (v : Option (PackedDecimal s.cfg.w)) (e : Status) (d : BitVec s.cfg.accw) :
    ((s.setReg r v).answer e d).value? r = v := State.value?_setReg_same v (State.lt_of_reg? hr)

section SetDigit

variable {rd : RegNum} {v : PackedDecimal s.cfg.w} {i : Nat}

/-- After an addressable digit of `rd` was written: that digit is the value, the others are as before. -/
theorem State.Inv.digitAt_setDigit (hs : s.Inv) (hv : s.value? rd = some v) (hi : v.addressable i = true) (d : Digit)
    (e : Status) (a : BitVec s.cfg.accw) (j : Nat) :
    ((s.setReg rd (some (v.setDigit d i))).answer e a).digitAt rd j = if i = j then some d else s.digitAt rd j := by
  have h4 := Config.four_le hs.1
  have hreg := (State.value?_eq_some_iff rd v).mp hv
  have hc := hs.coherent hreg
  have hafter := State.value?_setReg_answer hreg (some (v.setDigit d i)) e a
  rw [State.digitAt_eq (s := (s.setReg rd _).answer e a) h4 hafter ((v.setDigit_coherent d i).trans hc),
    State.digitAt_eq h4 hv hc, PackedDecimal.setDigit_addressable, v.getDigit_setDigit h4 d i j (v.addressable_word h4 hc hi)]
  by_cases hij : i = j
  · rw [if_pos hij, if_pos hij, if_pos (hij ▸ hi)]
  · rw [if_neg hij, if_neg hij]

/-- After an addressable digit of `rd` was written, every word but the digit's own is as before. -/
theorem State.Inv.wordAt_setDigit_ne (hs : s.Inv) (hv : s.value? rd = some v) (hi : v.addressable i = true) (d : Digit)
    (e : Status) (a : BitVec s.cfg.accw) {k : Nat} (hk : k ≠ wordIndex s.cfg.dpw i) :
    ((s.setReg rd (some (v.setDigit d i))).answer e a).wordAt rd k = s.wordAt rd k := by
  have hreg := (State.value?_eq_some_iff rd v).mp hv
  have hc := hs.coherent hreg
  have hafter := State.value?_setReg_answer hreg (some (v.setDigit d i)) e a
  have hword : (v.setDigit d i).memRead k = v.memRead k :=
    (v.memRead_setDigit d i k (v.addressable_word (Config.four_le hs.1) hc hi)).trans (if_neg hk.symm)
  rw [State.wordAt_eq hafter ((v.setDigit_coherent d i).trans hc), State.wordAt_eq hv hc, hword,
    PackedDecimal.setDigit_wc]

end SetDigit

/-- Settles O10: when SETD completes it has written one digit of the register's record and answered OK. -/
theorem setdWritesOneDigit : Obligations.SetdWritesOneDigit := by
  refine fun s rd idx val hs =>
    ⟨digitCommand_illegal _, digitCommand_unalloc _, fun wc hwc hidx => ?_, fun wc hwc hidx => ?_⟩
  · obtain ⟨v, hv, rfl⟩ := State.exists_of_wordCount? hwc
    exact (hs.execSetd_eq hv idx val).trans (if_neg (PackedDecimal.not_addressable_of_le hidx))
  · obtain ⟨v, hv, rfl⟩ := State.exists_of_wordCount? hwc
    have hin : v.addressable idx.toNat = true := PackedDecimal.addressable_iff.mpr hidx
    have hdigit := hs.digitAt_setDigit hv hin val .ok 0
    exact ⟨_, (hs.execSetd_eq hv idx val).trans (if_pos hin), by simp [State.answer?],
      (hdigit _).trans (if_pos rfl), fun i hi => (hdigit i).trans (if_neg hi.symm),
      fun k hk => hs.wordAt_setDigit_ne hv hin val .ok 0 hk,
      countsKept_setReg (v := v.setDigit val idx.toNat) ((State.value?_eq_some_iff rd v).mp hv) rfl rfl .ok 0 rd,
      othersKept_setReg s rd _ .ok 0⟩

end Sys2Proof.Machine
end

section
/-! PROOFS. The operand store (spec/41_value_store.md): every outcome of ALLOC (R100), FREE (R101) and COPY (R102). -/

open Sys2Proof.Spec

namespace Sys2Proof.Machine

variable {s : State}

/-! ### What a register reads as -/

/-- The valid bit and the counts are those of the record the register holds (R20). -/
theorem State.counts_of_value? {r : RegNum} {v : PackedDecimal s.cfg.w} (hv : s.value? r = some v) :
    s.valid r = true ∧ s.digitCount? r = some v.dc.toNat ∧ s.wordCount? r = some v.wc := by
  simp [State.valid, State.digitCount?, State.wordCount?, hv]

theorem State.answer?_answer_ok (s : State) : (s.answer .ok 0).answer? = some (.ok, 0) := by
  simp [State.answer?]

/-- Writing one register, drawing free values and answering keeps all that is not that register (R21). -/
theorem othersKept_setReg_drawn (s : State) (rd : RegNum) (v : Option (PackedDecimal s.cfg.w)) (n : Nat) (e : Status)
    (d : BitVec s.cfg.accw) : OthersKept s (((s.setReg rd v).drawn n).answer e d) rd :=
  ⟨fun _ hr => State.sameRegister_setReg hr, rfl, rfl, rfl, rfl⟩

/-! ### The checks of FREE and COPY -/

theorem State.lt_of_value? {r : RegNum} {v : PackedDecimal s.cfg.w} (hv : s.value? r = some v) : r.toNat < s.cfg.nv :=
  State.lt_of_reg? ((State.value?_eq_some_iff r v).mp hv)

theorem all_legal_iff {rs : List RegNum} : rs.all (RegNum.legal s.cfg.nv) = true ↔ ∀ r ∈ rs, r.toNat < s.cfg.nv := by
  simp [RegNum.legal]

/-- A command whose registers exist, on one that holds no value (R172, R173). -/
theorem valueCommand_unalloc {rs : List RegNum} {r : RegNum} (k : PackedDecimal s.cfg.w → Result)
    (hrs : ∀ r ∈ rs, r.toNat < s.cfg.nv) (hr : r ∈ rs) (hvalid : s.valid r = false) :
    s.ifLegal rs (s.withValue r k) = .next (s.answer .errUnalloc 0) := by
  rw [State.ifLegal_of (all_legal_iff.mpr hrs), State.withValue_none k (State.reg?_of_not_valid (hrs r hr) hvalid)]
  rfl

/-- A command whose registers exist goes on with the value the register holds. -/
theorem valueCommand_of {rs : List RegNum} {r : RegNum} {v : PackedDecimal s.cfg.w} (k : PackedDecimal s.cfg.w → Result)
    (hrs : ∀ r ∈ rs, r.toNat < s.cfg.nv) (hv : s.value? r = some v) : s.ifLegal rs (s.withValue r k) = k v := by
  rw [State.ifLegal_of (all_legal_iff.mpr hrs), State.withValue_of k ((State.value?_eq_some_iff r v).mp hv)]

/-! ### ALLOC -/

theorem execAlloc_invalidArg {rd : RegNum} {dc : Index} (hrd : rd.toNat < s.cfg.nv) (hdc : dc.toNat = 0) :
    execAlloc rd dc s = .next (s.answer .errInvalidArg 0) := by
  unfold execAlloc
  rw [State.ifLegal_of (all_legal_iff.mpr (by simpa using hrd)), if_pos (toNat_eq_zero_iff.mp hdc)]
  rfl

theorem execAlloc_capacity {rd : RegNum} {dc : Index} (hrd : rd.toNat < s.cfg.nv) (hmax : s.cfg.maxd < dc.toNat) :
    execAlloc rd dc s = .next (s.answer .errCapacity 0) := by
  have hne : dc ≠ 0 := fun h => (Nat.zero_lt_of_lt hmax).ne' (toNat_eq_zero_iff.mpr h)
  unfold execAlloc
  rw [State.ifLegal_of (all_legal_iff.mpr (by simpa using hrd)), if_neg hne, if_pos hmax]
  rfl

/-- The record ALLOC writes (R100). -/
def freshValue (c : Config) (dc : Index) (draws : Nat) : PackedDecimal c.w :=
  ⟨dc, dc.toNat / c.dpw + 1, fillWords c draws (dc.toNat / c.dpw + 1)⟩

theorem execAlloc_freshValue {rd : RegNum} {dc : Index} (hrd : rd.toNat < s.cfg.nv) (hpos : 1 ≤ dc.toNat)
    (hmax : dc.toNat ≤ s.cfg.maxd) : execAlloc rd dc s =
      .next (((s.setReg rd (some (freshValue s.cfg dc s.draws))).drawn (dc.toNat / s.cfg.dpw + 1)).answer .ok 0) :=
  execAlloc_of hrd hpos hmax

/-- Under `alloc_fill = zero` every word of a fresh buffer is 0 (R33). -/
theorem memRead_freshValue_zero {c : Config} (hfill : c.allocFill = .zero) (dc : Index) (draws k : Nat) :
    (freshValue c dc draws).memRead k = 0 := by
  simp only [PackedDecimal.memRead, freshValue, fillWords, hfill, List.getD_eq_getElem?_getD, List.getElem?_replicate]
  split <;> rfl

section FreshValue

variable {r : RegNum} {dc : Index} {draws : Nat} (hc : s.cfg.wf = true) (hpos : 1 ≤ dc.toNat)
  (hmax : dc.toNat ≤ s.cfg.maxd) (hr : s.value? r = some (freshValue s.cfg dc draws))
include hc hpos hmax hr

/-- A fresh record is coherent, so its words are those that its word count names (R23). -/
theorem wordAt_freshValue (k : Nat) : s.wordAt r k =
    if k < dc.toNat / s.cfg.dpw + 1 then some ((freshValue s.cfg dc draws).memRead k).toNat else none :=
  State.wordAt_eq hr (PackedDecimal.coherent_of_wf hc (PackedDecimal.wf_alloc s.cfg dc draws hpos hmax)) k

theorem isSome_wordAt_freshValue (k : Nat) : (s.wordAt r k).isSome = decide (k < dc.toNat / s.cfg.dpw + 1) := by
  rw [wordAt_freshValue hc hpos hmax hr]
  by_cases hk : k < dc.toNat / s.cfg.dpw + 1
  · rw [if_pos hk, decide_eq_true hk, Option.isSome_some]
  · rw [if_neg hk, decide_eq_false hk, Option.isSome_none]

theorem wordAt_freshValue_zero (hfill : s.cfg.allocFill = .zero) {k : Nat} (hk : k < dc.toNat / s.cfg.dpw + 1) :
    s.wordAt r k = some 0 := by
  rw [wordAt_freshValue hc hpos hmax hr, if_pos hk, memRead_freshValue_zero hfill]
  simp

end FreshValue

/-- Settles O12: past the checks the register holds a fresh record, and every reading of it is one of that record. -/
theorem allocMakesFreshValue : Obligations.AllocMakesFreshValue := by
  refine fun s rd dc hs => ⟨fun hrd => State.ifLegal_illegal ⟨rd, List.mem_singleton_self rd, hrd⟩,
    execAlloc_invalidArg, execAlloc_capacity, fun hrd hpos hmax => ?_⟩
  have hafter : (s.setReg rd (some (freshValue s.cfg dc s.draws))).value? rd = some (freshValue s.cfg dc s.draws) :=
    State.value?_setReg_same _ hrd
  obtain ⟨hvalid, hdc, hwc⟩ := State.counts_of_value? hafter
  exact ⟨_, execAlloc_freshValue hrd hpos hmax, State.answer?_answer_ok _, hvalid, hdc, hwc,
    isSome_wordAt_freshValue hs.1 hpos hmax hafter,
    fun hfill _ => wordAt_freshValue_zero (s := s.setReg rd _) hs.1 hpos hmax hafter hfill,
    othersKept_setReg_drawn s rd _ _ .ok 0⟩

/-! ### FREE -/

/-- Settles O14: the register's record is gone, and nothing else of the store with it. -/
theorem freeInvalidatesRegister : Obligations.FreeInvalidatesRegister := by
  refine fun s rd _ => ⟨fun hrd => State.ifLegal_illegal ⟨rd, List.mem_singleton_self rd, hrd⟩,
    fun hrd hvalid => valueCommand_unalloc _ (by simpa using hrd) (List.mem_singleton_self rd) hvalid,
    fun hvalid => ?_⟩
  obtain ⟨v, hv⟩ := State.exists_of_valid hvalid
  have hrd := State.lt_of_value? hv
  have hafter : (s.setReg rd none).value? rd = none := State.value?_setReg_same none hrd
  exact ⟨_, valueCommand_of _ (by simpa using hrd) hv, State.answer?_answer_ok _,
    congrArg Option.isSome hafter, othersKept_setReg s rd none .ok 0⟩

/-! ### COPY -/

/-- COPY between registers the machine has, the source valid (R102). -/
theorem execCopy_of {rd rs : RegNum} {v : PackedDecimal s.cfg.w} (hrd : rd.toNat < s.cfg.nv)
    (hv : s.value? rs = some v) : execCopy rd rs s =
      if rd = rs then .next (s.answer .ok 0) else .next ((s.setReg rd (some v)).answer .ok 0) :=
  valueCommand_of _ (by simpa using ⟨hrd, State.lt_of_value? hv⟩) hv

/-- A register that was written with the record of another reads as that one did. -/
theorem reads_of_setReg_value {rd rs : RegNum} {v : PackedDecimal s.cfg.w} (hrd : rd.toNat < s.cfg.nv)
    (hv : s.value? rs = some v) :
    (s.setReg rd (some v)).valid rd = true ∧ (s.setReg rd (some v)).digitCount? rd = s.digitCount? rs ∧
      (s.setReg rd (some v)).wordCount? rd = s.wordCount? rs ∧
      ∀ k, (s.setReg rd (some v)).wordAt rd k = s.wordAt rs k := by
  have hafter : (s.setReg rd (some v)).value? rd = some v := State.value?_setReg_same _ hrd
  simp [State.valid, State.digitCount?, State.wordCount?, State.wordAt, hafter, hv]

/-- Settles O15: the destination is written with the source's whole record, so it reads as the source did. -/
theorem copyIsDeep : Obligations.CopyIsDeep := by
  refine fun s rd rs _ => ⟨fun h => State.ifLegal_illegal (by simpa using h),
    fun hrd hrs hvalid => valueCommand_unalloc _ (by simpa using ⟨hrd, hrs⟩) (by simp) hvalid,
    fun heq hvalid => ?_, fun hne hrd hvalid => ?_⟩
  · obtain ⟨v, hv⟩ := State.exists_of_valid hvalid
    exact (execCopy_of (heq ▸ State.lt_of_value? hv) hv).trans (if_pos heq)
  · obtain ⟨v, hv⟩ := State.exists_of_valid hvalid
    obtain ⟨hvalid', hdc, hwc, hword⟩ := reads_of_setReg_value hrd hv
    exact ⟨_, (execCopy_of hrd hv).trans (if_neg hne), State.answer?_answer_ok _, hvalid', hdc, hwc, hword,
      othersKept_setReg s rd (some v) .ok 0⟩

end Sys2Proof.Machine
end

section
/-! PROOFS. The bcd_ripple_adder (spec/42_bcd_ripple_adder.md): the digit step (R117, R118), when ADD stops (R119), the
record and the state it leaves in closed form (R126), and what follows: its frame (R128), its arithmetic law (R129), ADD of
a register to itself (R124) and what ADD does not read (R121, R122). -/

open Sys2Proof.Spec

namespace Sys2Proof.Machine

variable {s t : State} {w : Nat}

/-- Settles O18: each bound from the two digits' own. -/
theorem digitStepBounds : Obligations.DigitStepBounds := by
  intro a b c hc
  have ha := a.isLt
  have hb := b.isLt
  rw [sumDigit_toNat a b hc]
  refine ⟨by unfold digitSum; omega, carryOut_le a b, by omega, rfl, by omega, fun ha9 hb9 => ?_⟩
  have hsum : digitSum a b ≤ 18 := by unfold digitSum; omega
  have hout : carryOut a b ≤ 1 := by unfold carryOut; omega
  exact ⟨hsum, hout, fun hc1 => by omega⟩

/-! ### ADD on the records -/

/-- The final-carry step stops where the spare slot's sum exceeds 15 under `setd_overflow = refuse`, and only there. -/
theorem addFinalCarry_eq_error_iff {mode : SetdOverflow} {n : Nat} {p : PackedDecimal w × Nat} :
    addFinalCarry mode n p = .error .spareSlotOverflow ↔
      p.2 ≠ 0 ∧ n < p.1.dc.toNat ∧ 15 < (p.1.getDigit n).toNat + p.2 ∧ mode = .refuse := by
  unfold addFinalCarry
  by_cases hcarry : p.2 ≠ 0 ∧ n < p.1.dc.toNat
  · rw [if_pos hcarry]
    by_cases hsum : 16 ≤ (p.1.getDigit n).toNat + p.2 ∧ mode = .refuse
    · exact iff_of_true (if_pos hsum) ⟨hcarry.1, hcarry.2, hsum⟩
    · dsimp only
      rw [if_neg hsum]
      exact iff_of_false nofun fun h => hsum h.2.2
  · rw [if_neg hcarry]
    exact iff_of_false nofun fun h => hcarry ⟨h.1, h.2.1⟩

namespace PackedDecimal

/-- Digit `i` of `self += other` in the closed form of R126, from the digits before. -/
def sumAt (self other : PackedDecimal w) (i : Nat) : Digit :=
  if i < min self.dc.toNat other.dc.toNat then
    sumDigit (self.getDigit i) (other.getDigit i) (carryInto self other i)
  else if i = min self.dc.toNat other.dc.toNat ∧ i < self.dc.toNat then
    BitVec.ofNat 4 (((self.getDigit i).toNat + carryInto self other i) % 16)
  else self.getDigit i

/-- `v` is the record that `a += b` leaves in self: the counts of `a`, with the digits of R126. -/
structure IsSum (a b v : PackedDecimal w) : Prop where
  dc : v.dc = a.dc
  wc : v.wc = a.wc
  length : v.buf.length = a.buf.length
  digit : ∀ i, v.getDigit i = a.sumAt b i

variable {self other u v : PackedDecimal w} {i n : Nat}

theorem sumAt_toNat_of_lt (hi : i < min self.dc.toNat other.dc.toNat) : (self.sumAt other i).toNat =
    ((self.getDigit i).toNat + (other.getDigit i).toNat) % 10 + carryInto self other i :=
  (congrArg BitVec.toNat (if_pos hi)).trans (sumDigit_toNat _ _ (carryInto_le self other i))

theorem sumAt_toNat_spare (hn : n = min self.dc.toNat other.dc.toNat) (hlt : n < self.dc.toNat) :
    (self.sumAt other n).toNat = ((self.getDigit n).toNat + carryInto self other n) % 16 := by
  have hslot : self.sumAt other n = BitVec.ofNat 4 (((self.getDigit n).toNat + carryInto self other n) % 16) :=
    (if_neg hn.not_lt).trans (if_pos ⟨hn, hlt⟩)
  rw [hslot, BitVec.toNat_ofNat, Nat.mod_mod]

/-- From `n` on a digit stays, but for digit `n` when it takes a final carry (R119, R120). -/
theorem sumAt_eq_self (hn : n = min self.dc.toNat other.dc.toNat) (hi : n ≤ i)
    (hkept : ¬ (i = n ∧ carryInto self other n ≠ 0 ∧ n < self.dc.toNat)) : self.sumAt other i = self.getDigit i := by
  by_cases hslot : i = n ∧ i < self.dc.toNat
  · obtain ⟨rfl, hlt⟩ := hslot
    have hzero : carryInto self other i = 0 := by
      by_contra hcarry
      exact hkept ⟨rfl, hcarry, hlt⟩
    apply BitVec.eq_of_toNat_eq
    rw [sumAt_toNat_spare hn hlt, hzero]
    exact Nat.mod_eq_of_lt (self.getDigit i).isLt
  · subst hn
    exact (if_neg hi.not_gt).trans (if_neg hslot)

/-- The closed form determines the record. -/
theorem IsSum.unique (hw : w % 4 = 0) (hu : self.IsSum other u) (hv : self.IsSum other v) : u = v :=
  ext_getDigit hw (hu.dc.trans hv.dc.symm) (hu.wc.trans hv.wc.symm) (hu.length.trans hv.length.symm)
    fun i => (hu.digit i).trans (hv.digit i).symm

theorem IsSum.coherent (h : self.IsSum other v) (hc : self.coherent = true) : v.coherent = true := by
  unfold PackedDecimal.coherent addressable at hc ⊢
  rwa [h.dc, h.wc, h.length]

theorem IsSum.addressable (h : self.IsSum other v) (i : Nat) : v.addressable i = self.addressable i := by
  unfold PackedDecimal.addressable
  rw [h.wc]

end PackedDecimal

section AddValue

variable {mode : SetdOverflow} {self v : PackedDecimal w} {other : Option (PackedDecimal w)}

theorem addValue_isSum (h4 : 4 ≤ w) (hc : self.coherent = true) (h : addValue mode self other = .ok v) :
    self.IsSum (other.getD self) v := by
  obtain ⟨hdc, hwc, hlength, hdigit⟩ := addValue_spec h4 hc h
  exact ⟨hdc, hwc, hlength, hdigit⟩

/-- When ADD on the values stops, by the digits before: the loop leaves digit `n`, and the latch holds `c_n` (R126). -/
theorem addValue_eq_error_iff (h4 : 4 ≤ w) (hc : self.coherent = true) {n : Nat}
    (hn : n = min self.dc.toNat (other.getD self).dc.toNat) :
    addValue mode self other = .error .spareSlotOverflow ↔
      carryInto self (other.getD self) n ≠ 0 ∧ n < self.dc.toNat ∧
        15 < (self.getDigit n).toNat + carryInto self (other.getD self) n ∧ mode = .refuse := by
  obtain ⟨hcarry, hdigit⟩ := addLoop_spec h4 other self n fun i hi => self.coherent_word h4 hc (by omega)
  obtain ⟨hdc, -, -⟩ := addLoop_frame other n self
  rw [addValue, ← hn, addFinalCarry_eq_error_iff, hcarry, hdigit n, if_neg (lt_irrefl n), hdc]

/-- ADD on the values has a result wherever it does not stop on the spare slot. -/
theorem addValue_ok_of_ne_error (h : addValue mode self other ≠ .error .spareSlotOverflow) :
    ∃ v, addValue mode self other = .ok v := by
  cases hsum : addValue mode self other with
  | ok v => exact ⟨v, rfl⟩
  | error e =>
    obtain ⟨rfl, -⟩ := addValue_error hsum
    exact absurd hsum h

end AddValue

/-! ### ADD on a legal state -/

/-- Whether or not `other` is self, its old digits are those of the record that `rs` holds (R124). -/
theorem State.addOperand_getD {rd rs : RegNum} {a b : PackedDecimal s.cfg.w} (ha : s.value? rd = some a)
    (hb : s.value? rs = some b) : (if rd = rs then none else some b).getD a = b := by
  split
  · next hr =>
    subst hr
    exact Option.some.inj (ha.symm.trans hb)
  · rfl

section Values

variable {rd rs : RegNum} {a b : PackedDecimal s.cfg.w} (hs : s.Inv) (ha : s.value? rd = some a)
  (hb : s.value? rs = some b)
include hs ha hb

/-- Both registers are valid, so ADD goes on with their records (R115). -/
theorem State.Inv.addCommand_of (k : PackedDecimal s.cfg.w → PackedDecimal s.cfg.w → Result) :
    (s.ifLegal [rd, rs] <| s.withDigits rd fun a => s.withDigits rs fun b => k a b) = k a b := by
  have hrega := (State.value?_eq_some_iff rd a).mp ha
  have hregb := (State.value?_eq_some_iff rs b).mp hb
  rw [State.ifLegal_of (all_legal_iff.mpr (by simpa using ⟨State.lt_of_value? ha, State.lt_of_value? hb⟩)),
    State.withDigits_of _ hrega (hs.coherent hrega), State.withDigits_of _ hregb (hs.coherent hregb)]

theorem State.Inv.execAdd_of_ok {v : PackedDecimal s.cfg.w}
    (h : addValue s.cfg.setdOverflow a (if rd = rs then none else some b) = .ok v) :
    execAdd rd rs s = .next ((s.setReg rd (some v)).answer .ok 0) := by
  unfold execAdd
  rw [hs.addCommand_of ha hb, h]
  rfl

theorem State.Inv.execAdd_of_error {e : Refusal}
    (h : addValue s.cfg.setdOverflow a (if rd = rs then none else some b) = .error e) :
    execAdd rd rs s = .refused e := by
  unfold execAdd
  rw [hs.addCommand_of ha hb, h]

theorem State.Inv.carry_eq {i : Nat} (hi : i ≤ min a.dc.toNat b.dc.toNat) :
    carry s rd rs i = carryInto a b i := by
  cases i with
  | zero => rfl
  | succ i => rw [carry, hs.digitNat_eq ha (by omega), hs.digitNat_eq hb (by omega)]; rfl

/-- The condition under which ADD completes (R119), said of the records. -/
theorem State.Inv.spareSumAllowed_iff : SpareSumAllowed s rd rs (min a.dc.toNat b.dc.toNat) a.dc.toNat ↔
    addValue s.cfg.setdOverflow a (if rd = rs then none else some b) ≠ .error .spareSlotOverflow := by
  have hc := hs.coherent ((State.value?_eq_some_iff rd a).mp ha)
  have hmode : s.cfg.setdOverflow = .truncate ↔ ¬ s.cfg.setdOverflow = .refuse := by
    cases s.cfg.setdOverflow <;> decide
  have hslot : min a.dc.toNat b.dc.toNat = a.dc.toNat ↔ ¬ min a.dc.toNat b.dc.toNat < a.dc.toNat := by omega
  rw [Ne, addValue_eq_error_iff (Config.four_le hs.1) hc rfl, State.addOperand_getD ha hb, SpareSumAllowed,
    hs.carry_eq ha hb le_rfl, hs.digitNat_eq ha (Nat.min_le_left _ _), hmode, hslot, ← Nat.not_lt]
  tauto

theorem State.Inv.execAdd_of_allowed (h : SpareSumAllowed s rd rs (min a.dc.toNat b.dc.toNat) a.dc.toNat) :
    ∃ v, a.IsSum b v ∧ execAdd rd rs s = .next ((s.setReg rd (some v)).answer .ok 0) := by
  have hc := hs.coherent ((State.value?_eq_some_iff rd a).mp ha)
  obtain ⟨v, hv⟩ := addValue_ok_of_ne_error ((hs.spareSumAllowed_iff ha hb).mp h)
  have hsum := addValue_isSum (Config.four_le hs.1) hc hv
  rw [State.addOperand_getD ha hb] at hsum
  exact ⟨v, hsum, hs.execAdd_of_ok ha hb hv⟩

theorem State.Inv.execAdd_of_not_allowed (h : ¬ SpareSumAllowed s rd rs (min a.dc.toNat b.dc.toNat) a.dc.toNat) :
    execAdd rd rs s = .refused .spareSlotOverflow :=
  hs.execAdd_of_error ha hb (by rwa [hs.spareSumAllowed_iff ha hb, not_not] at h)

end Values

/-- Settles O24: the clause that allows the final-carry sum fails in each of its cases. -/
theorem addRefusesSpareSumAboveFifteen : Obligations.AddRefusesSpareSumAboveFifteen := by
  intro s rd rs dcSelf dcOther hs hself hother hrefuse hlt hcarry hsum
  obtain ⟨a, ha, rfl⟩ := State.exists_of_digitCount? hself
  obtain ⟨b, hb, rfl⟩ := State.exists_of_digitCount? hother
  refine hs.execAdd_of_not_allowed ha hb ?_
  rw [Nat.min_eq_right hlt.le, SpareSumAllowed, hrefuse]
  rintro (h | h | h | h)
  · cases h
  · exact hcarry h
  · exact hlt.ne h
  · exact hsum.not_ge h

/-! ### The closed form -/

/-- What ADD makes of a state in the closed form of R126, over `n` digits of a self of `dcSelf` digits, and its frame. -/
structure AddEffect (s t : State) (rd rs : RegNum) (n dcSelf : Nat) : Prop where
  below : ∀ i, i < n → t.digitNat rd i = (s.digitNat rd i + s.digitNat rs i) % 10 + carry s rd rs i
  spare : carry s rd rs n ≠ 0 → n < dcSelf → t.digitNat rd n = (s.digitNat rd n + carry s rd rs n) % 16
  rest : ∀ i, n ≤ i → ¬ (i = n ∧ carry s rd rs n ≠ 0 ∧ n < dcSelf) → t.digitAt rd i = s.digitAt rd i
  counts : CountsKept s t rd
  others : OthersKept s t rd

/-- Writing the sum's record into `rd` has the effect of ADD. -/
theorem PackedDecimal.IsSum.addEffect {rd rs : RegNum} {a b v : PackedDecimal s.cfg.w} (hsum : a.IsSum b v)
    (hs : s.Inv) (ha : s.value? rd = some a) (hb : s.value? rs = some b) :
    AddEffect s ((s.setReg rd (some v)).answer .ok 0) rd rs (min a.dc.toNat b.dc.toNat) a.dc.toNat := by
  have hrega := (State.value?_eq_some_iff rd a).mp ha
  have hc := hs.coherent hrega
  have h4 := Config.four_le hs.1
  have hafter : ((s.setReg rd (some v)).answer .ok 0).value? rd = some v :=
    State.value?_setReg_answer hrega (some v) .ok 0
  have hinv : ((s.setReg rd (some v)).answer .ok 0).Inv :=
    hs.setReg_answer_ok rd (PackedDecimal.wf_of_counts hsum.dc hsum.wc hsum.length (hs.wf_of_reg? hrega)) 0
  have hdigit {i : Nat} (hi : i ≤ a.dc.toNat) :
      ((s.setReg rd (some v)).answer .ok 0).digitNat rd i = (a.sumAt b i).toNat := by
    rw [hinv.digitNat_eq hafter (by rwa [hsum.dc]), hsum.digit]
  have hmin : min a.dc.toNat b.dc.toNat ≤ a.dc.toNat := Nat.min_le_left _ _
  constructor
  case below =>
    intro i hi
    rw [hdigit (by omega), PackedDecimal.sumAt_toNat_of_lt hi, hs.digitNat_eq ha (by omega),
      hs.digitNat_eq hb (by omega), hs.carry_eq ha hb hi.le]
  case spare =>
    intro _ hlt
    rw [hdigit hmin, PackedDecimal.sumAt_toNat_spare rfl hlt, hs.digitNat_eq ha hmin, hs.carry_eq ha hb le_rfl]
  case rest =>
    intro i hi hkept
    rw [hs.carry_eq ha hb le_rfl] at hkept
    rw [State.digitAt_eq (s := (s.setReg rd _).answer .ok 0) h4 hafter (hsum.coherent hc), State.digitAt_eq h4 ha hc,
      hsum.addressable, hsum.digit, PackedDecimal.sumAt_eq_self rfl hi hkept]
  case counts => exact countsKept_setReg hrega hsum.dc hsum.wc .ok 0 rd
  case others => exact othersKept_setReg s rd (some v) .ok 0

/-- Settles O19: where the final carry's sum is allowed, ADD writes the sum's record and answers OK. -/
theorem addClosedForm : Obligations.AddClosedForm := by
  intro s rd rs dcSelf dcOther hs hself hother n hallowed
  obtain ⟨a, ha, rfl⟩ := State.exists_of_digitCount? hself
  obtain ⟨b, hb, rfl⟩ := State.exists_of_digitCount? hother
  obtain ⟨v, hsum, hexec⟩ := hs.execAdd_of_allowed ha hb hallowed
  obtain ⟨hbelow, hspare, hrest, hcounts, hothers⟩ := hsum.addEffect hs ha hb
  exact ⟨_, hexec, State.answer?_answer_ok _, hbelow, hspare, hrest, hcounts, hothers⟩

/-- ADD of two valid registers that gives a next state has the effect of R126: it was not refused. -/
theorem State.Inv.addEffect_of_next {rd rs : RegNum} {dcSelf dcOther : Nat} (hs : s.Inv)
    (hself : s.digitCount? rd = some dcSelf) (hother : s.digitCount? rs = some dcOther)
    (h : exec (.add rd rs) s = .next t) : AddEffect s t rd rs (min dcSelf dcOther) dcSelf := by
  obtain ⟨a, ha, rfl⟩ := State.exists_of_digitCount? hself
  obtain ⟨b, hb, rfl⟩ := State.exists_of_digitCount? hother
  have hallowed : SpareSumAllowed s rd rs (min a.dc.toNat b.dc.toNat) a.dc.toNat := by
    by_contra hno
    cases h.symm.trans (hs.execAdd_of_not_allowed ha hb hno)
  obtain ⟨v, hsum, hexec⟩ := hs.execAdd_of_allowed ha hb hallowed
  cases h.symm.trans hexec
  exact hsum.addEffect hs ha hb

/-! ### The frame -/

section AddEffect

variable {rd rs : RegNum} {n dcSelf : Nat}

theorem AddEffect.digitAt_of_lt (h : AddEffect s t rd rs n dcSelf) {i : Nat} (hi : n < i) :
    t.digitAt rd i = s.digitAt rd i := h.rest i hi.le fun hno => hi.ne' hno.1

/-- The sign slot is the digit of index `dc`, which never takes a final carry (R120, R122). -/
theorem AddEffect.signAt (h : AddEffect s t rd rs n dcSelf) (hself : s.digitCount? rd = some dcSelf)
    (hn : n ≤ dcSelf) : t.signAt rd = s.signAt rd := by
  obtain ⟨-, hdc, -⟩ := h.counts
  unfold State.signAt
  rw [hdc, hself]
  exact h.rest dcSelf hn fun ⟨heq, _, hlt⟩ => hlt.ne' heq

end AddEffect

/-- Settles O20: every clause is read off the effect of ADD. -/
theorem addFrame : Obligations.AddFrame := by
  intro s t rd rs dcSelf dcOther hs hself hother h
  have heffect := hs.addEffect_of_next hself hother h
  obtain ⟨hregisters, hacc, -⟩ := heffect.others
  exact ⟨heffect.counts, heffect.signAt hself (Nat.min_le_left _ _), fun _ => heffect.digitAt_of_lt,
    hregisters, hacc⟩

/-! ### The arithmetic law -/

theorem State.digitNat_lt (s : State) (r : RegNum) (i : Nat) : s.digitNat r i < 16 := by
  unfold State.digitNat
  cases s.digitAt r i with
  | none => decide
  | some d => exact d.isLt

/-- The loss `L` of R129: what a final carry that is dropped, or that overflows the spare slot, takes from the value. -/
def finalCarryLoss (s : State) (rd rs : RegNum) (n dcSelf : Nat) : Nat :=
  if carry s rd rs n = 0 then 0
  else if n = dcSelf then carry s rd rs n * 10 ^ n
  else if s.digitNat rd n + carry s rd rs n ≤ 15 then 0
  else 16 * 10 ^ n

/-- Without a spare slot the final carry is lost whole (R120). -/
theorem finalCarryLoss_dropped (s : State) (rd rs : RegNum) (n : Nat) :
    finalCarryLoss s rd rs n n = carry s rd rs n * 10 ^ n := by
  unfold finalCarryLoss
  split
  · next hzero => rw [hzero, Nat.zero_mul]
  · exact if_pos rfl

/-- A digit plus a carry exceeds the field at most once (R119). -/
theorem State.digitNat_add_carry_lt (s : State) (rd rs : RegNum) (n : Nat) :
    s.digitNat rd n + carry s rd rs n < 32 := by
  have hdigit := s.digitNat_lt rd n
  cases n with
  | zero => exact hdigit.trans (by decide)
  | succ i =>
    have ha := s.digitNat_lt rd i
    have hb := s.digitNat_lt rs i
    rw [carry]
    omega

/-- Registers whose digits agree from `m` on have values that differ by what they differ below `m`. -/
theorem State.valOf_add_valOf {r : RegNum} {m k : Nat} (hk : m ≤ k)
    (h : ∀ i, m ≤ i → t.digitNat r i = s.digitNat r i) :
    t.valOf r k + s.valOf r m = s.valOf r k + t.valOf r m := by
  induction k, hk using Nat.le_induction with
  | base => exact Nat.add_comm _ _
  | succ k hk ih =>
    rw [State.valOf, State.valOf, h k hk]
    omega

theorem State.digitNat_eq_of_digitAt_eq {r : RegNum} {i : Nat} (h : t.digitAt r i = s.digitAt r i) :
    t.digitNat r i = s.digitNat r i := by
  unfold State.digitNat
  rw [h]

section AddEffect

variable {rd rs : RegNum} {n dcSelf : Nat}

/-- The digit step loses nothing: a carry that is not propagated stays behind as a digit of 10 or more (R129). -/
theorem AddEffect.valOf_below (h : AddEffect s t rd rs n dcSelf) {k : Nat} (hk : k ≤ n) :
    t.valOf rd k + carry s rd rs k * 10 ^ k = s.valOf rd k + s.valOf rs k := by
  induction k with
  | zero => simp [State.valOf, carry]
  | succ k ih =>
    have hbelow := ih (by omega)
    have hdigit := h.below k hk
    generalize hd : s.digitNat rd k + s.digitNat rs k = d at hdigit
    have hsplit : d % 10 + 10 * (d / 10) = d := Nat.mod_add_div d 10
    calc t.valOf rd (k + 1) + carry s rd rs (k + 1) * 10 ^ (k + 1)
      _ = t.valOf rd k + (d % 10 + carry s rd rs k) * 10 ^ k + d / 10 * 10 ^ (k + 1) := by
        rw [State.valOf, hdigit, carry, hd]
      _ = (t.valOf rd k + carry s rd rs k * 10 ^ k) + (d % 10 + 10 * (d / 10)) * 10 ^ k := by ring
      _ = s.valOf rd (k + 1) + s.valOf rs (k + 1) := by
        rw [hbelow, hsplit, ← hd, State.valOf, State.valOf]
        ring

/-- The spare slot takes the carry whole, or loses 16 of its sum (R119). -/
theorem AddEffect.spare_add_loss (h : AddEffect s t rd rs n dcSelf) (hlt : n < dcSelf) :
    t.digitNat rd n * 10 ^ n + finalCarryLoss s rd rs n dcSelf = (s.digitNat rd n + carry s rd rs n) * 10 ^ n := by
  unfold finalCarryLoss
  by_cases hzero : carry s rd rs n = 0
  · have hkept := State.digitNat_eq_of_digitAt_eq (h.rest n le_rfl fun hno => hno.2.1 hzero)
    rw [if_pos hzero, hkept, hzero]
    rfl
  · rw [if_neg hzero, if_neg hlt.ne, h.spare hzero hlt]
    by_cases hsum : s.digitNat rd n + carry s rd rs n ≤ 15
    · rw [if_pos hsum, Nat.mod_eq_of_lt (by omega), Nat.add_zero]
    · have hbound := s.digitNat_add_carry_lt rd rs n
      rw [if_neg hsum, ← Nat.add_mul]
      congr 1
      omega

/-- With a spare slot the whole value changes as that of digits `0 .. n` does. -/
theorem AddEffect.valOf_of_lt (h : AddEffect s t rd rs n dcSelf) (hlt : n < dcSelf) :
    t.valOf rd dcSelf + s.valOf rd (n + 1) = s.valOf rd dcSelf + t.valOf rd (n + 1) :=
  State.valOf_add_valOf hlt fun _ hi => State.digitNat_eq_of_digitAt_eq (h.digitAt_of_lt hi)

/-- The law of R129: the digits below `n` lose nothing, so the loss is that of the final carry. -/
theorem AddEffect.valOf_add_loss (h : AddEffect s t rd rs n dcSelf) (hn : n ≤ dcSelf) :
    t.valOf rd dcSelf + finalCarryLoss s rd rs n dcSelf = s.valOf rd dcSelf + s.valOf rs n := by
  have hbelow := h.valOf_below le_rfl
  rcases hn.eq_or_lt with rfl | hlt
  · rwa [finalCarryLoss_dropped]
  · have hslot := h.spare_add_loss hlt
    have habove := h.valOf_of_lt hlt
    rw [State.valOf, State.valOf] at habove
    linarith

end AddEffect

/-- Settles O21: the law of the effect that the closed form gives. -/
theorem addValueLaw : Obligations.AddValueLaw := by
  intro s rd rs dcSelf dcOther hs hself hother n hallowed cn loss
  obtain ⟨t, hexec, -⟩ := addClosedForm s rd rs dcSelf dcOther hs hself hother hallowed
  exact ⟨t, hexec, (hs.addEffect_of_next hself hother hexec).valOf_add_loss (Nat.min_le_left _ _)⟩

/-! ### A register added to itself -/

theorem State.reg?_setReg_same {r : RegNum} (v : Option (PackedDecimal s.cfg.w)) (h : r.toNat < s.cfg.nv) :
    (s.setReg r v).reg? r = some v := by
  rw [State.reg?_setReg, if_pos ⟨rfl, h⟩]

/-- Settles O22: the closed form with one register twice; the copy is another record with the same digits, and the closed
form determines the sum's record. -/
theorem addToItselfIsAddOfCopy : Obligations.AddToItselfIsAddOfCopy := by
  intro s r dc hs hdc
  obtain ⟨a, ha, rfl⟩ := State.exists_of_digitCount? hdc
  have hdrop {s : State} {rs : RegNum} {n : Nat} : SpareSumAllowed s r rs (min n n) n := .inr (.inr (.inl (min_self n)))
  obtain ⟨v, hv, hexec⟩ := hs.execAdd_of_allowed ha ha hdrop
  have heffect := hv.addEffect hs ha ha
  rw [min_self] at heffect
  refine ⟨_, hexec, fun i hi => ?_, fun i hi => heffect.rest i hi fun h => lt_irrefl _ h.2.2,
    fun scratch hscratch hne => ?_⟩
  · rw [heffect.below i hi, Nat.two_mul]
  · have hcopy := (execCopy_of hscratch ha).trans (if_neg hne)
    have hu := exec_keeps_inv (i := .copy scratch r) hs hcopy
    have hself : ((s.setReg scratch (some a)).answer .ok 0).value? r = some a :=
      (State.value?_setReg_ne (some a) hne).trans ha
    have hother : ((s.setReg scratch (some a)).answer .ok 0).value? scratch = some a :=
      State.value?_setReg_same (some a) hscratch
    obtain ⟨v', hv', hexec'⟩ := hu.execAdd_of_allowed hself hother hdrop
    cases hv.unique (Config.w_mod_four hs.1) hv'
    refine ⟨_, _, hcopy, hexec', ?_⟩
    have hr := State.lt_of_value? ha
    exact State.sameRegister_of ((State.reg?_setReg_same (s := (s.setReg scratch _).answer .ok 0) (some v) hr).trans
      (State.reg?_setReg_same (s := s) (some v) hr).symm)

/-! ### What ADD does not read -/

/-- In legal states a digit up to the sign slot is there, so it is the same where its number is. -/
theorem State.digitAt_eq_of_digitNat_eq {r : RegNum} {dc i : Nat} (hs : s.Inv) (ht : t.Inv)
    (hdc : s.digitCount? r = some dc) (hdc' : t.digitCount? r = some dc) (hi : i ≤ dc)
    (h : t.digitNat r i = s.digitNat r i) : t.digitAt r i = s.digitAt r i := by
  obtain ⟨v, hv, rfl⟩ := State.exists_of_digitCount? hdc
  obtain ⟨v', hv', hcount⟩ := State.exists_of_digitCount? hdc'
  rw [hs.digitNat_eq hv hi, ht.digitNat_eq hv' (hcount.symm ▸ hi)] at h
  rw [hs.digitAt_eq hv hi, ht.digitAt_eq hv' (hcount.symm ▸ hi), BitVec.eq_of_toNat_eq h]

theorem carry_congr {rd rs : RegNum} {n : Nat} (hself : ∀ i, i < n → t.digitNat rd i = s.digitNat rd i)
    (hother : ∀ i, i < n → t.digitNat rs i = s.digitNat rs i) {i : Nat} (hi : i ≤ n) :
    carry t rd rs i = carry s rd rs i := by
  cases i with
  | zero => rfl
  | succ i => rw [carry, carry, hself i hi, hother i hi]

/-- ADD on two states with the same digits of self and the same digits of other below `n` leaves the same digits of self. -/
theorem AddEffect.digitAt_congr {s' t' : State} {rd rs : RegNum} {n dcSelf : Nat} (h : AddEffect s t rd rs n dcSelf)
    (h' : AddEffect s' t' rd rs n dcSelf) (ht : t.Inv) (ht' : t'.Inv) (hdc : t.digitCount? rd = some dcSelf)
    (hdc' : t'.digitCount? rd = some dcSelf) (hn : n ≤ dcSelf)
    (hself : ∀ i, i < dcSelf → s'.digitAt rd i = s.digitAt rd i)
    (hother : ∀ i, i < n → s'.digitAt rs i = s.digitAt rs i) {i : Nat} (hi : i < dcSelf) :
    t'.digitAt rd i = t.digitAt rd i := by
  have hselfNat : ∀ i, i < dcSelf → s'.digitNat rd i = s.digitNat rd i := fun i hi =>
    State.digitNat_eq_of_digitAt_eq (hself i hi)
  have hotherNat : ∀ i, i < n → s'.digitNat rs i = s.digitNat rs i := fun i hi =>
    State.digitNat_eq_of_digitAt_eq (hother i hi)
  have hcarry {i : Nat} : i ≤ n → carry s' rd rs i = carry s rd rs i :=
    carry_congr (fun i hi => hselfNat i (hi.trans_le hn)) hotherNat
  rcases lt_or_ge i n with hlt | hge
  · refine State.digitAt_eq_of_digitNat_eq ht ht' hdc hdc' hi.le ?_
    rw [h.below i hlt, h'.below i hlt, hselfNat i hi, hotherNat i hlt, hcarry hlt.le]
  · by_cases hspare : i = n ∧ carry s rd rs n ≠ 0 ∧ n < dcSelf
    · obtain ⟨rfl, hnz, -⟩ := hspare
      refine State.digitAt_eq_of_digitNat_eq ht ht' hdc hdc' hi.le ?_
      rw [h.spare hnz hi, h'.spare (by rwa [hcarry le_rfl]) hi, hselfNat i hi, hcarry le_rfl]
    · rw [h.rest i hge hspare, h'.rest i hge (by rwa [hcarry le_rfl]), hself i hi]

/-- Settles O23: the effect of ADD is told by the digits the two states agree on. -/
theorem addIgnoresSignsAndHighDigits : Obligations.AddIgnoresSignsAndHighDigits := by
  intro s s' t t' rd rs dcSelf dcOther hs hs' _ hself hother hself' hother' hdigits hdigits' h h'
  have heffect := hs.addEffect_of_next hself hother h
  have heffect' := hs'.addEffect_of_next hself' hother' h'
  have hn : min dcSelf dcOther ≤ dcSelf := Nat.min_le_left _ _
  obtain ⟨-, hdc, -⟩ := heffect.counts
  obtain ⟨-, hdc', -⟩ := heffect'.counts
  exact ⟨fun i => heffect.digitAt_congr heffect' (exec_keeps_inv hs h) (exec_keeps_inv hs' h') (hdc.trans hself)
      (hdc'.trans hself') hn hdigits hdigits',
    heffect.signAt hself hn, heffect'.signAt hself' hn, fun _ => heffect.digitAt_of_lt⟩

end Sys2Proof.Machine
end

section
/-! PROOFS. The bcd_digit_accumulator (spec/43_bcd_digit_accumulator.md): what CVT puts into ACC is the signed value of the
register's record cut to `ACCW` bits (R135 to R138), which the host reads back exactly where it fits (R140). -/

open Sys2Proof.Spec

namespace Sys2Proof.Machine

variable {s : State}

/-! ### The signed value of a record -/

namespace PackedDecimal

variable {w : Nat} (v : PackedDecimal w)

/-- The magnitude, negated where the sign slot is set (R136, R137). -/
def signedMagnitude : Int := if v.signSet then -(v.magnitude : Int) else v.magnitude

/-- The accumulator wraps and its negation is two's complement, so ACC is the signed value cut to `ACCW` bits (R138). -/
theorem applySign_accumulate {accw : Nat} (h4 : 4 ≤ accw) :
    applySign v (accumulate v v.dc.toNat 0) = BitVec.ofInt accw v.signedMagnitude := by
  have hmagnitude : accumulate v v.dc.toNat 0 = BitVec.ofInt accw v.magnitude := by
    rw [accumulate_eq h4, BitVec.ofInt_natCast]
    simp [magnitude]
  unfold applySign signedMagnitude
  rw [hmagnitude]
  split
  · exact BitVec.ofInt_neg.symm
  · rfl

/-- The model's test is R138's: the negative range reaches one further. -/
theorem overflows_iff (accw : Nat) : v.overflows accw = true ↔ ¬ Fits accw v.signedMagnitude := by
  have hpos : 1 ≤ 2 ^ (accw - 1) := Nat.one_le_two_pow
  have hcast : ((2 ^ (accw - 1) : Nat) : Int) = 2 ^ (accw - 1) := by push_cast; rfl
  unfold overflows signedMagnitude Fits
  rw [← hcast]
  split
  · rw [decide_eq_true_iff]
    omega
  · rw [decide_eq_true_iff]
    omega

end PackedDecimal

theorem Config.eight_le_accw {c : Config} (h : c.wf = true) : 8 ≤ c.accw := by
  simp only [Config.wf, Bool.and_eq_true, decide_eq_true_eq] at h
  omega

section Valid

variable {rd : RegNum} {v : PackedDecimal s.cfg.w} (hs : s.Inv) (hv : s.value? rd = some v)
include hs hv

theorem State.Inv.valOf_eq {k : Nat} (hk : k ≤ v.dc.toNat) : s.valOf rd k = v.valUpTo k := by
  induction k with
  | zero => rfl
  | succ k ih =>
    have hlt : k ≤ v.dc.toNat := Nat.le_of_succ_le hk
    rw [State.valOf, PackedDecimal.valUpTo, ih hlt, hs.digitNat_eq hv hlt]

theorem State.Inv.signAt_eq : s.signAt rd = some v.sign := by
  obtain ⟨-, hdc, -⟩ := State.counts_of_value? hv
  rw [State.signAt, hdc, Option.bind_some, hs.digitAt_eq hv le_rfl]
  rfl

/-- The signed value the statements read is that of the record. -/
theorem State.Inv.signedValue_eq : signedValue s rd = v.signedMagnitude := by
  obtain ⟨-, hdc, -⟩ := State.counts_of_value? hv
  have hval : s.valOf rd v.dc.toNat = v.magnitude := hs.valOf_eq hv le_rfl
  simp [signedValue, PackedDecimal.signedMagnitude, PackedDecimal.signSet, hdc, hval, hs.signAt_eq hv]

/-- The model's test is R138's, on the value the statements read. -/
theorem State.Inv.overflows_iff : v.overflows s.cfg.accw = true ↔ ¬ Fits s.cfg.accw (signedValue s rd) := by
  rw [hs.signedValue_eq hv]
  exact v.overflows_iff s.cfg.accw

/-- CVT on a valid register (R135): the one refusal, else the signed value cut to `ACCW` bits. -/
theorem State.Inv.execCvt_eq : execCvt rd s =
    if s.cfg.accOverflow = .refuse ∧ v.overflows s.cfg.accw = true then .refused .accumulatorOverflow
    else .next ((s.setAcc (.ofInt s.cfg.accw (signedValue s rd))).answer .ok (.ofInt s.cfg.accw (signedValue s rd))) := by
  have h4 : 4 ≤ s.cfg.accw := (by decide : 4 ≤ 8).trans (Config.eight_le_accw hs.1)
  rw [hs.signedValue_eq hv, ← v.applySign_accumulate h4]
  exact hs.digitCommand_of hv _

end Valid

/-- A two's-complement word read as unsigned (R11). -/
theorem toNat_ofInt_eq_emod (accw : Nat) (x : Int) : ((BitVec.ofInt accw x).toNat : Int) = x % 2 ^ accw := by
  rw [BitVec.toNat_ofInt, Int.toNat_of_nonneg (Int.emod_nonneg _ (by positivity))]
  push_cast
  rfl

/-- Settles O25: every outcome of CVT is a branch of its equation on a valid register, or a check before it. -/
theorem cvtIsSignedValueModulo : Obligations.CvtIsSignedValueModulo := by
  refine fun s rd hs => ⟨digitCommand_illegal _, digitCommand_unalloc _, fun hvalid hrefuse hfits => ?_,
    fun hvalid hmeaning => ?_⟩
  · obtain ⟨v, hv⟩ := State.exists_of_valid hvalid
    exact (hs.execCvt_eq hv).trans (if_pos ⟨hrefuse, (hs.overflows_iff hv).mpr hfits⟩)
  · obtain ⟨v, hv⟩ := State.exists_of_valid hvalid
    have hcompletes : ¬ (s.cfg.accOverflow = .refuse ∧ v.overflows s.cfg.accw = true) := by
      rintro ⟨hrefuse, hover⟩
      rcases hmeaning with hwrap | hfits
      · cases hwrap.symm.trans hrefuse
      · exact (hs.overflows_iff hv).mp hover hfits
    exact ⟨_, (hs.execCvt_eq hv).trans (if_neg hcompletes), toNat_ofInt_eq_emod _ _, rfl,
      fun r => State.sameRegister_of rfl, rfl, rfl, rfl⟩

/-! ### The host's reading of ACC -/

/-- Reading `accw` bits as signed gives back an integer that fits them (R140). -/
theorem signedReading_of_fits {accw n : Nat} {x : Int} (hpos : 0 < accw) (hn : (n : Int) = x % 2 ^ accw)
    (hfits : Fits accw x) : (if n < 2 ^ (accw - 1) then (n : Int) else n - 2 ^ accw) = x := by
  obtain ⟨hlow, hhigh⟩ := hfits
  have hdouble : (2 : Int) ^ accw = 2 * 2 ^ (accw - 1) := (mul_pow_sub_one hpos.ne' 2).symm
  have hcast : (n < 2 ^ (accw - 1)) ↔ (n : Int) < 2 ^ (accw - 1) := by exact_mod_cast Iff.rfl
  rw [hdouble] at hn ⊢
  rw [if_congr hcast rfl rfl]
  generalize (2 : Int) ^ (accw - 1) = half at *
  rcases lt_or_ge x 0 with hneg | hnonneg
  · rw [← Int.add_emod_right, Int.emod_eq_of_lt (by omega) (by omega)] at hn
    rw [if_neg (by omega)]
    omega
  · rw [Int.emod_eq_of_lt hnonneg (by omega)] at hn
    rw [if_pos (by omega), hn]

/-- Settles O26: CVT completes with the value modulo `2^ACCW`, and the value fits the host's reading. -/
theorem cvtIsExactWhenValueFits : Obligations.CvtIsExactWhenValueFits := by
  intro s rd hs hvalid hfits
  obtain ⟨-, -, -, hcompletes⟩ := cvtIsSignedValueModulo s rd hs
  obtain ⟨t, hexec, hacc, -⟩ := hcompletes hvalid (.inr hfits)
  have hpos : 0 < s.cfg.accw := (by decide : 0 < 8).trans_le (Config.eight_le_accw hs.1)
  exact ⟨t, hexec, signedReading_of_fits hpos hacc hfits⟩

end Sys2Proof.Machine
end

section
/-! PROOFS. The host's construction of a value (spec/44_host_procedures.md R151, R152): ALLOC, one SETD per digit and SETS
complete on every legal state, and leave exactly the digits and the sign they were given. -/

namespace Sys2Proof.Machine

variable {s t u : State} {rd : RegNum}

/-! ### Writing a run of digits -/

/-- From `s` to the legal state `t` the digits `ds` were written, from index `i` of register `rd` on; the digits below
`i`, the digit count and the configuration are as they were. -/
structure DigitsWritten (s t : State) (rd : RegNum) (i : Nat) (ds : List Digit) : Prop where
  inv : t.Inv
  cfg : t.cfg = s.cfg
  count : t.digitCount? rd = s.digitCount? rd
  written : ∀ j, j < ds.length → t.digitAt rd (i + j) = ds[j]?
  below : ∀ j, j < i → t.digitAt rd j = s.digitAt rd j

theorem DigitsWritten.nil (hs : s.Inv) (i : Nat) : DigitsWritten s s rd i [] := ⟨hs, rfl, rfl, nofun, fun _ _ => rfl⟩

/-- One digit, then a run from the next index on. -/
theorem DigitsWritten.cons {i : Nat} {d : Digit} {ds : List Digit} (hd : DigitsWritten s t rd i [d])
    (hds : DigitsWritten t u rd (i + 1) ds) : DigitsWritten s u rd i (d :: ds) where
  inv := hds.inv
  cfg := hds.cfg.trans hd.cfg
  count := hds.count.trans hd.count
  written
    | 0, _ => (hds.below i (Nat.lt_succ_self i)).trans (hd.written 0 Nat.one_pos)
    | j + 1, hj => by
      rw [Nat.add_left_comm, Nat.add_comm j]
      exact hds.written j (Nat.lt_of_succ_lt_succ hj)
  below j hj := (hds.below j (Nat.lt_succ_of_lt hj)).trans (hd.below j hj)

/-- SETD of a digit up to the sign slot completes, and the host takes its response. -/
theorem State.Inv.exec_setd (hs : s.Inv) {dc i : Nat} (hdc : s.digitCount? rd = some dc) (hi : i ≤ dc) (d : Digit) :
    ∃ t, exec (.setd rd (BitVec.ofNat 16 i) d) s = .next t ∧ t.answer? = some (.ok, 0) ∧
      DigitsWritten s t.deliver rd i [d] := by
  obtain ⟨v, hv, rfl⟩ := State.exists_of_digitCount? hdc
  obtain ⟨-, -, hwc⟩ := State.counts_of_value? hv
  have hidx : (BitVec.ofNat 16 i).toNat = i := (BitVec.toNat_ofNat i 16).trans (Nat.mod_eq_of_lt (hi.trans_lt v.dc.isLt))
  have hin : i < v.wc * s.cfg.dpw := PackedDecimal.addressable_iff.mp (hs.addressable hv hi)
  obtain ⟨-, -, -, hcompletes⟩ := setdWritesOneDigit s rd (BitVec.ofNat 16 i) d hs
  obtain ⟨t, hexec, hok, hdigit, hrest, -, ⟨-, hcount, -⟩, -⟩ := hcompletes v.wc hwc (hidx.symm ▸ hin)
  rw [hidx] at hdigit hrest
  have hcfg : t.cfg = s.cfg := exec_keeps_cfg hexec
  refine ⟨t, hexec, hok, (exec_keeps_inv hs hexec).deliver, hcfg, hcount, ?_,
    fun j hj => hrest j hj.ne⟩
  rintro (_ | j) hj
  · exact hdigit
  · exact absurd hj (by simp)

/-- SETS is SETD of one more digit. -/
theorem setDigits_append_sets (rd : RegNum) (i : Nat) (ds : List Digit) (negative : Bool) :
    setDigits rd i ds ++ [sets rd (i + ds.length) negative] =
      setDigits rd i (ds ++ [if negative then 1 else 0]) := by
  induction ds generalizing i with
  | nil => rfl
  | cons d ds ih =>
    have hlength : i + (d :: ds).length = i + 1 + ds.length := by
      rw [List.length_cons]
      omega
    rw [hlength, setDigits, List.cons_append, ih]
    rfl

theorem State.Inv.perform_setDigits {ds : List Digit} (hs : s.Inv) {dc i : Nat} (hdc : s.digitCount? rd = some dc)
    (hfit : i + ds.length ≤ dc + 1) :
    ∃ t data, perform (setDigits rd i ds) s = .done t data ∧ DigitsWritten s t rd i ds := by
  induction ds generalizing s i with
  | nil => exact ⟨s, [], rfl, .nil hs i⟩
  | cons d ds ih =>
    rw [List.length_cons] at hfit
    obtain ⟨t, hexec, hok, hd⟩ := hs.exec_setd hdc (i := i) (by omega) d
    obtain ⟨u, data, hperform, hds⟩ := ih (i := i + 1) hd.inv (hd.count.trans hdc) (by omega)
    exact ⟨u, 0 :: data, perform_cons hexec hok hperform, hd.cons hds⟩

/-! ### The whole construction -/

/-- Register `rd` of a legal state holds exactly the digits `ds` and the sign `negative`. -/
structure HoldsDigits (t : State) (rd : RegNum) (ds : List Digit) (negative : Bool) : Prop where
  inv : t.Inv
  count : t.digitCount? rd = some ds.length
  digit : ∀ i, i < ds.length → t.digitAt rd i = ds[i]?
  sign : t.signAt rd = some (if negative then 1 else 0)

/-- Writing the digits and the sign slot of a register of that many digits. -/
theorem DigitsWritten.holdsDigits {ds : List Digit} {negative : Bool} (hdc : s.digitCount? rd = some ds.length)
    (h : DigitsWritten s t rd 0 (ds ++ [if negative then 1 else 0])) : HoldsDigits t rd ds negative := by
  have hwritten (i : Nat) (hi : i ≤ ds.length) :
      t.digitAt rd i = (ds ++ [if negative then 1 else 0])[i]? := by
    rw [← h.written i (by simp; omega), Nat.zero_add]
  have hcount := h.count.trans hdc
  refine ⟨h.inv, hcount, fun i hi => ?_, ?_⟩
  · rw [hwritten i hi.le, List.getElem?_append_left hi]
  · rw [State.signAt, hcount, Option.bind_some, hwritten _ le_rfl, List.getElem?_concat_length]

/-- No admissible digit count is beyond the index field (R8, R61). -/
theorem Config.maxd_lt {c : Config} (h : c.wf = true) : c.maxd < 2 ^ 16 := by
  simp only [Config.wf, Bool.and_eq_true, decide_eq_true_eq] at h
  unfold Config.maxd
  omega

/-- ALLOC of an admissible digit count completes, and the host takes its response. -/
theorem State.Inv.exec_alloc (hs : s.Inv) (hrd : rd.toNat < s.cfg.nv) {dc : Nat} (hpos : 1 ≤ dc)
    (hmax : dc ≤ s.cfg.maxd) :
    ∃ t, exec (.alloc rd (BitVec.ofNat 16 dc)) s = .next t ∧ t.answer? = some (.ok, 0) ∧ t.deliver.Inv ∧
      t.deliver.cfg = s.cfg ∧ t.deliver.digitCount? rd = some dc := by
  have hidx : (BitVec.ofNat 16 dc).toNat = dc := 
    (BitVec.toNat_ofNat dc 16).trans (Nat.mod_eq_of_lt (hmax.trans_lt (Config.maxd_lt hs.1)))
  obtain ⟨-, -, -, hcompletes⟩ := allocMakesFreshValue s rd (BitVec.ofNat 16 dc) hs
  rw [hidx] at hcompletes
  obtain ⟨t, hexec, hok, -, hcount, -⟩ := hcompletes hrd hpos hmax
  have hcfg : t.cfg = s.cfg := exec_keeps_cfg hexec
  exact ⟨t, hexec, hok, (exec_keeps_inv hs hexec).deliver, hcfg, hcount⟩

/-- On every legal state the construction of a value that fits the register completes (R151, R152, R192). -/
theorem State.Inv.perform_construct (hs : s.Inv) (hrd : rd.toNat < s.cfg.nv) {ds : List Digit} (hpos : 1 ≤ ds.length)
    (hmax : ds.length ≤ s.cfg.maxd) (negative : Bool) :
    ∃ commands t data, construct rd ds negative = .ok commands ∧ perform commands s = .done t data ∧
      t.cfg = s.cfg ∧ HoldsDigits t rd ds negative := by
  obtain ⟨t, hexec, hok, hinv, hcfg, hcount⟩ := hs.exec_alloc hrd hpos hmax
  obtain ⟨u, data, hperform, hwritten⟩ := hinv.perform_setDigits (ds := ds ++ [if negative then 1 else 0]) (i := 0)
    hcount (by simp)
  have hsets := setDigits_append_sets rd 0 ds negative
  rw [Nat.zero_add] at hsets
  refine ⟨_, u, 0 :: data, if_pos (hmax.trans_lt (Config.maxd_lt hs.1)), ?_, hwritten.cfg.trans hcfg,
    hwritten.holdsDigits hcount⟩
  rw [hsets]
  exact perform_cons hexec hok hperform

end Sys2Proof.Machine
end

section
/-! PROOFS. NEWI and then CVT give the integer back (spec/43_bcd_digit_accumulator.md R141): the digits NEWI writes are the
decimal digits of the magnitude (R150, R151), so the register's signed value is the integer. -/

open Sys2Proof.Spec

namespace Sys2Proof.Machine

variable {s : State} {rd : RegNum}

/-! ### The decimal digits of a number -/

theorem lt_pow_countDigitsFuel {fuel m : Nat} (h : m ≤ fuel) : m < 10 ^ countDigitsFuel fuel m := by
  induction fuel generalizing m with
  | zero => exact h.trans_lt (Nat.pow_pos (by decide))
  | succ fuel ih =>
    rw [countDigitsFuel]
    split
    · next hlt => exact hlt
    · have hdiv : m / 10 < 10 ^ countDigitsFuel fuel (m / 10) := ih (by omega)
      rw [pow_succ]
      omega

theorem one_le_countDigitsFuel (fuel m : Nat) : 1 ≤ countDigitsFuel fuel m := by
  cases fuel with
  | zero => exact le_rfl
  | succ fuel =>
    rw [countDigitsFuel]
    split
    · exact le_rfl
    · exact Nat.le_add_left 1 _

@[simp] theorem length_lowDigits (n m : Nat) : (lowDigits n m).length = n := by
  induction n generalizing m with
  | zero => rfl
  | succ n ih => rw [lowDigits, List.length_cons, ih]

/-- Repeated division gives the digits by their weight (R151). -/
theorem getElem?_lowDigits {n m i : Nat} (hi : i < n) : (lowDigits n m)[i]? = some (BitVec.ofNat 4 (m / 10 ^ i % 10)) := by
  induction n generalizing m i with
  | zero => exact absurd hi (Nat.not_lt_zero i)
  | succ n ih =>
    cases i with
    | zero => rw [lowDigits, List.getElem?_cons_zero, pow_zero, Nat.div_one]
    | succ i =>
      rw [lowDigits, List.getElem?_cons_succ, ih (Nat.lt_of_succ_lt_succ hi), Nat.div_div_eq_div_mul, ← pow_succ']

/-! ### The value that NEWI makes -/

/-- A register whose digits are the low decimal digits of `m` weighs `m` cut to that many digits (R129). -/
theorem State.valOf_of_decimalDigits {m n : Nat} (h : ∀ i, i < n → s.digitNat rd i = m / 10 ^ i % 10) :
    s.valOf rd n = m % 10 ^ n := by
  induction n with
  | zero => rw [State.valOf, pow_zero, Nat.mod_one]
  | succ n ih =>
    rw [State.valOf, ih fun i hi => h i (Nat.lt_succ_of_lt hi), h n (Nat.lt_succ_self n), Nat.mod_pow_succ,
      Nat.mul_comm (10 ^ n)]

theorem HoldsDigits.digitNat_lowDigits {n m : Nat} {negative : Bool} (h : HoldsDigits s rd (lowDigits n m) negative)
    {i : Nat} (hi : i < n) : s.digitNat rd i = m / 10 ^ i % 10 := by
  have hlt : m / 10 ^ i % 10 < 2 ^ 4 := (Nat.mod_lt _ (by decide)).trans (by decide)
  rw [State.digitNat, h.digit i (by simpa using hi), getElem?_lowDigits hi, Option.map_some, Option.getD_some,
    BitVec.toNat_ofNat, Nat.mod_eq_of_lt hlt]

/-- A register that holds enough decimal digits of an integer's magnitude, and its sign, holds the integer. -/
theorem HoldsDigits.signedValue_eq {n : Nat} {value : Int}
    (h : HoldsDigits s rd (lowDigits n value.natAbs) (decide (value < 0))) (hn : value.natAbs < 10 ^ n) :
    signedValue s rd = value := by
  have hmagnitude : s.valOf rd n = value.natAbs := by
    rw [State.valOf_of_decimalDigits fun i hi => h.digitNat_lowDigits hi, Nat.mod_eq_of_lt hn]
  rw [signedValue, h.count, h.sign, Option.getD_some, length_lowDigits, hmagnitude]
  rcases lt_or_ge value 0 with hneg | hnonneg
  · simp [hneg, abs_of_neg]
  · simp [hnonneg, hnonneg.not_gt]

theorem newi_eq_construct {accw : Nat} {value : Int} (rd : RegNum) (hlow : -(2 ^ (accw - 1)) < value)
    (hhigh : value < 2 ^ (accw - 1)) : newi accw rd value =
      construct rd (lowDigits (countDecimalDigits value.natAbs) value.natAbs) (decide (value < 0)) :=
  if_pos ⟨hlow, hhigh⟩

/-- CVT, whose response the host takes, on a register whose signed value fits (R138). -/
theorem State.Inv.perform_cvt (hs : s.Inv) (hvalid : s.valid rd = true)
    (hfits : Fits s.cfg.accw (signedValue s rd)) :
    ∃ t x, perform [.cvt rd] s = .done t [x] ∧ (x : Int) = signedValue s rd % 2 ^ s.cfg.accw := by
  obtain ⟨-, -, -, hcompletes⟩ := cvtIsSignedValueModulo s rd hs
  obtain ⟨t, hexec, hacc, hok, -⟩ := hcompletes hvalid (.inr hfits)
  exact ⟨t.deliver, _, perform_cons hexec hok rfl, hacc⟩

/-- Settles O42: NEWI's construction completes, the register then holds the integer, and CVT reads it. -/
theorem integerRoundTrip : Obligations.IntegerRoundTrip := by
  intro s rd value hs hrd hlow hhigh hmax
  have hcount : 1 ≤ countDecimalDigits value.natAbs := one_le_countDigitsFuel _ _
  obtain ⟨commands, t, data, hconstruct, hperform, hcfg, hholds⟩ := hs.perform_construct hrd
    (ds := lowDigits (countDecimalDigits value.natAbs) value.natAbs) (by simpa using hcount) (by simpa using hmax)
    (decide (value < 0))
  have hvalue : signedValue t rd = value := hholds.signedValue_eq (lt_pow_countDigitsFuel le_rfl)
  obtain ⟨v, hv, -⟩ := State.exists_of_digitCount? hholds.count
  have hfits : Fits t.cfg.accw (signedValue t rd) := by
    rw [hvalue, hcfg]
    exact ⟨hlow.le, Int.le_sub_one_of_lt hhigh⟩
  obtain ⟨u, x, hcvt, hx⟩ := hholds.inv.perform_cvt (State.counts_of_value? hv).1 hfits
  rw [hvalue, hcfg] at hx
  exact ⟨commands, u, data, x, (newi_eq_construct rd hlow hhigh).trans hconstruct, perform_append hperform hcvt, hx⟩

end Sys2Proof.Machine
end

section
/-! PROOFS. The host's handling of digits and characters (spec/44_host_procedures.md): what `count_decimal_digits` counts
(R150), which strings NEWS refuses (R153), and that RENDER gives back the string that NEWS was given (R156). -/

namespace Sys2Proof.Machine

variable {s : State} {rd : RegNum} {ds : List Digit} {negative : Bool}

/-! ### The count of decimal digits -/

/-- Each division by ten that is counted takes one power of ten off the bound (R150). -/
theorem countDigitsFuel_le {fuel m k : Nat} (hk : 1 ≤ k) (hm : m < 10 ^ k) : countDigitsFuel fuel m ≤ k := by
  induction fuel generalizing m k with
  | zero => exact hk
  | succ fuel ih =>
    rw [countDigitsFuel]
    split
    · exact hk
    · next hten =>
      obtain ⟨k, rfl⟩ := Nat.exists_eq_add_of_le' hk
      have hpos : k ≠ 0 := by
        rintro rfl
        exact hten hm
      have hdiv : m / 10 < 10 ^ k := Nat.div_lt_of_lt_mul (by rwa [pow_succ'] at hm)
      exact Nat.succ_le_succ (ih (Nat.one_le_iff_ne_zero.mpr hpos) hdiv)

/-- Settles O39: the count is large enough, and least by induction on the divisions. -/
theorem countDecimalDigitsIsLeast : Obligations.CountDecimalDigitsIsLeast := fun m =>
  ⟨one_le_countDigitsFuel m m, lt_pow_countDigitsFuel le_rfl, fun _ => countDigitsFuel_le⟩

/-! ### The strings that NEWS accepts -/

/-- What follows the optional leading '-' (R152). -/
def unsignedPart (string : List Char) : List Char := if string.head? = some '-' then string.tail else string

theorem isDecimalDigit_iff {c : Char} : isDecimalDigit c = true ↔ 48 ≤ c.toNat ∧ c.toNat ≤ 57 := by
  simp [isDecimalDigit]

/-- NEWS of a string: one test of the unsigned part, then the construction of its digits, the last character first. -/
theorem news_some (rd : RegNum) (string : List Char) : news rd (some string) =
    if unsignedPart string ≠ [] ∧ ∀ c ∈ unsignedPart string, isDecimalDigit c = true then
      construct rd ((unsignedPart string).reverse.map valueOf) (decide (string.head? = some '-'))
    else .error .invalidArgument := by
  cases string with
  | nil => rfl
  | cons c cs =>
    have hpart : unsignedPart (c :: cs) = if decide (c = '-') = true then cs else c :: cs := by simp [unsignedPart]
    simp only [news, ← hpart]
    by_cases hempty : unsignedPart (c :: cs) = [] <;> simp [hempty]

theorem unsignedPart_eq_nil_iff {string : List Char} : unsignedPart string = [] ↔ string = [] ∨ string = ['-'] := by
  unfold unsignedPart
  split
  · next hminus =>
    obtain ⟨cs, rfl⟩ := List.head?_eq_some_iff.mp hminus
    simp
  · next hminus =>
    refine (or_iff_left ?_).symm
    rintro rfl
    exact hminus rfl

/-- The construction fails for another reason only (R61; log entry 10). -/
theorem construct_ne_invalidArgument (rd : RegNum) (ds : List Digit) (negative : Bool) :
    construct rd ds negative ≠ .error .invalidArgument := by
  unfold construct
  split <;> nofun

/-- Settles O40: NEWS fails with invalid-argument where its one test of the unsigned part does. -/
theorem newsRefusesExactlyMalformedStrings : Obligations.NewsRefusesExactlyMalformedStrings := by
  refine fun rd => ⟨rfl, fun string => ?_⟩
  have hrefused : news rd (some string) = .error .invalidArgument ↔
      ¬ (unsignedPart string ≠ [] ∧ ∀ c ∈ unsignedPart string, isDecimalDigit c = true) := by
    rw [news_some, ite_eq_right_iff]
    exact forall_congr' fun _ => iff_false_intro (construct_ne_invalidArgument _ _ _)
  rw [hrefused, not_and_or, not_not, unsignedPart_eq_nil_iff, or_assoc]
  simp only [isDecimalDigit_iff, not_forall, exists_prop, unsignedPart]

/-- A string of decimal digits has no sign of its own, so NEWS constructs those digits with the sign put before them. -/
theorem news_signed {body : List Char} (hne : body ≠ []) (hbody : ∀ c ∈ body, isDecimalDigit c = true) (rd : RegNum)
    (negative : Bool) : news rd (some (if negative then '-' :: body else body)) =
      construct rd (body.reverse.map valueOf) negative := by
  have hsign : (if negative then '-' :: body else body).head? = some '-' ↔ negative = true := by
    cases negative with
    | true => simp
    | false => simpa using fun h => absurd (hbody '-' (List.mem_of_head? h)) (by decide)
  have hpart : unsignedPart (if negative then '-' :: body else body) = body := by
    rw [unsignedPart, if_congr hsign rfl rfl]
    cases negative <;> rfl
  rw [news_some, hpart, if_pos ⟨hne, hbody⟩, decide_eq_decide.mpr hsign, Bool.decide_coe]

/-! ### What RENDER reads -/

/-- Taking the response of a command that only reads leaves the register as it was. -/
theorem HoldsDigits.answer_deliver (h : HoldsDigits s rd ds negative) (d : BitVec s.cfg.accw) :
    HoldsDigits (s.answer .ok d).deliver rd ds negative :=
  ⟨(h.inv.answer (.inl rfl)).deliver, h.count, h.digit, h.sign⟩

/-- A digit fits the response's data (R8). -/
theorem State.Inv.answer?_digit (hs : s.Inv) (d : Digit) :
    (s.answer .ok (d.setWidth s.cfg.accw)).answer? = some (.ok, d.toNat) := by
  have hwidth : 4 ≤ s.cfg.accw := (by decide : 4 ≤ 8).trans (Config.eight_le_accw hs.1)
  rw [State.answer?, State.answer_response, Option.map_some, BitVec.toNat_setWidth_of_le hwidth]

/-- GETD of one of the digits (R85). -/
theorem HoldsDigits.exec_getd (h : HoldsDigits s rd ds negative) {i : Nat} (hi : i < ds.length) :
    exec (.getd rd (BitVec.ofNat 16 i)) s = .next (s.answer .ok (ds[i].setWidth s.cfg.accw)) := by
  obtain ⟨v, hv, hdc⟩ := State.exists_of_digitCount? h.count
  have hle : i ≤ v.dc.toNat := hdc ▸ hi.le
  have hidx : (BitVec.ofNat 16 i).toNat = i := (BitVec.toNat_ofNat i 16).trans (Nat.mod_eq_of_lt (hle.trans_lt v.dc.isLt))
  have hdigit : some (v.getDigit i) = some ds[i] := by
    rw [← h.inv.digitAt_eq hv hle, h.digit i hi, List.getElem?_eq_getElem hi]
  rw [← Option.some.inj hdigit]
  refine (h.inv.execGetd_eq hv _).trans ?_
  rw [hidx, if_pos (h.inv.addressable hv hle)]

/-- SIGN of the register (R87). -/
theorem HoldsDigits.exec_sign (h : HoldsDigits s rd ds negative) :
    exec (.sign rd) s = .next (s.answer .ok ((if negative then 1 else 0 : Digit).setWidth s.cfg.accw)) := by
  obtain ⟨v, hv, -⟩ := State.exists_of_digitCount? h.count
  have hsign : some v.sign = some (if negative then 1 else 0) := (h.inv.signAt_eq hv).symm.trans h.sign
  rw [← Option.some.inj hsign]
  exact h.inv.execSign_eq hv

/-- GETD of the digits below `n`, falling, answers them most significant first (R154). -/
theorem HoldsDigits.perform_getds (h : HoldsDigits s rd ds negative) {n : Nat} (hn : n ≤ ds.length) :
    ∃ t, perform ((List.range n).reverse.map fun i => .getd rd (BitVec.ofNat 16 i)) s =
      .done t ((ds.take n).reverse.map BitVec.toNat) := by
  induction n generalizing s with
  | zero => exact ⟨s, rfl⟩
  | succ n ih =>
    obtain ⟨t, hperform⟩ := ih (h.answer_deliver (ds[n].setWidth s.cfg.accw)) (Nat.le_of_succ_le hn)
    have htake : (ds.take (n + 1)).reverse = ds[n] :: (ds.take n).reverse := by
      rw [← List.take_append_getElem hn, List.reverse_concat]
    rw [List.range_succ, List.reverse_concat, htake]
    exact ⟨t, perform_cons (h.exec_getd hn) (h.inv.answer?_digit ds[n]) hperform⟩

/-- The commands of RENDER read the sign, then every digit (R154). -/
theorem HoldsDigits.render_eq (h : HoldsDigits s rd ds negative) :
    render rd ds.length s = renderText ((if negative then 1 else 0) :: ds.reverse.map BitVec.toNat) := by
  obtain ⟨t, hperform⟩ := (h.answer_deliver _).perform_getds le_rfl
  have hread := perform_cons h.exec_sign (h.inv.answer?_digit _) hperform
  rw [render, renderCommands, hread, List.take_length]
  cases negative <;> rfl

/-! ### The text that RENDER makes -/

/-- The character of the digit that a character denotes (R152, R154). -/
theorem charOf_valueOf {c : Char} (hc : isDecimalDigit c = true) : charOf (valueOf c).toNat = some c := by
  obtain ⟨hlow, hhigh⟩ := isDecimalDigit_iff.mp hc
  have hvalue : (valueOf c).toNat = c.toNat - 48 := (BitVec.toNat_ofNat _ 4).trans (Nat.mod_eq_of_lt (by omega))
  rw [charOf, hvalue, if_pos (by omega), Nat.add_sub_cancel' hlow, Char.ofNat_toNat]

theorem mapM_charOf {body : List Char} (hbody : ∀ c ∈ body, isDecimalDigit c = true) :
    (body.map fun c => (valueOf c).toNat).mapM charOf = some body := by
  induction body with
  | nil => rfl
  | cons c cs ih =>
    obtain ⟨hc, hcs⟩ := List.forall_mem_cons.mp hbody
    rw [List.map_cons, List.mapM_cons, charOf_valueOf hc, ih hcs]
    rfl

theorem renderText_of_body {body : List Char} (hbody : ∀ c ∈ body, isDecimalDigit c = true) (negative : Bool) :
    renderText ((if negative then 1 else 0) :: body.map fun c => (valueOf c).toNat) =
      some (if negative then '-' :: body else body) := by
  rw [renderText, mapM_charOf hbody]
  cases negative <;> rfl

/-- Settles O43: NEWS leaves the string's digits and sign in the register, and RENDER reads and writes out just those. -/
theorem stringRoundTrip : Obligations.StringRoundTrip := by
  intro s rd negative body hs hrd hne hchars hmax
  have hbody : ∀ c ∈ body, isDecimalDigit c = true := fun c hc => isDecimalDigit_iff.mpr (hchars c hc)
  have hlength : (body.reverse.map valueOf).length = body.length := by simp
  obtain ⟨commands, t, data, hconstruct, hperform, -, hholds⟩ := hs.perform_construct hrd
    (ds := body.reverse.map valueOf) (hlength ▸ List.length_pos_iff.mpr hne) (hlength ▸ hmax) negative
  refine ⟨commands, t, data, (news_signed hne hbody rd negative).trans hconstruct, hperform, ?_⟩
  have hdigits : (body.reverse.map valueOf).reverse.map BitVec.toNat = body.map fun c => (valueOf c).toNat := by
    simp [Function.comp_def]
  rw [← hlength, hholds.render_eq, hdigits, renderText_of_body hbody]

end Sys2Proof.Machine
end

section
/-! PROOFS. Errors (spec/60_exceptions.md): a command ends in OK or in an error that carries data 0 (R171, R174), and on
a legal state the error is the one that the table gives it, in the order of the checks (R172, R173). -/

open Sys2Proof.Spec

namespace Sys2Proof.Machine

variable {s t : State} {word : CommandWord}

/-! ### The codes on the response channel -/

theorem Status.code_toNat_le (e : Status) : e.code.toNat ≤ 5 := by
  cases e <;> decide

/-- A legal response carries data 0 unless its code is that of OK (R171). -/
theorem Response.data_eq_zero_of_code_ne_zero {accw : Nat} {a : Response accw} (ha : a.legal = true)
    (hcode : a.onChannel.1 ≠ 0) : a.onChannel.2 = 0 := by
  have hstatus : a.status ≠ .ok := fun hok => hcode (congrArg Status.code hok)
  simpa [Response.legal, hstatus] using ha

/-- A response is on the channel, and it is a legal one. -/
def AnsweredLegally (t : State) : Prop := ∃ a, t.response = some a ∧ a.legal = true

theorem answeredLegally_ok (s : State) (d : BitVec s.cfg.accw) : AnsweredLegally (s.answer .ok d) := ⟨_, rfl, rfl⟩

theorem ErrorAnswer.answeredLegally (he : ErrorAnswer s t) : AnsweredLegally t := by
  obtain ⟨e, -, rfl⟩ := he
  exact ⟨_, rfl, by simp [Response.legal]⟩

/-- A command that completes, in whatever state, answers OK or an error with data 0 (R171, R174). -/
theorem exec_answersLegally {i : Instr} (h : exec i s = .next t) : AnsweredLegally t := by
  have error : ErrorAnswer s t → AnsweredLegally t := ErrorAnswer.answeredLegally
  cases i with
  | alloc rd dc => exact (execAlloc_cases h).elim (fun ⟨_, _, _, ht⟩ => ht ▸ answeredLegally_ok _ _) error
  | free rd => exact (execFree_cases h).elim (fun ⟨_, _, ht⟩ => ht ▸ answeredLegally_ok _ _) error
  | copy rd rs =>
    refine (execCopy_cases h).elim (fun ⟨_, _, _, ht⟩ => ?_) error
    split at ht
    · exact ht ▸ answeredLegally_ok _ _
    · exact ht ▸ answeredLegally_ok _ _
  | setd rd idx val => exact (execSetd_cases h).elim (fun ⟨_, _, _, _, ht⟩ => ht ▸ answeredLegally_ok _ _) error
  | getd rd idx => exact (execGetd_cases h).elim (fun ⟨_, _, _, _, ht⟩ => ht ▸ answeredLegally_ok _ _) error
  | sign rd => exact (execSign_cases h).elim (fun ⟨_, _, _, ht⟩ => ht ▸ answeredLegally_ok _ _) error
  | add rd rs =>
    exact (execAdd_cases h).elim (fun ⟨_, _, _, _, _, _, _, _, ht⟩ => ht ▸ answeredLegally_ok _ _) error
  | cvt rd => exact (execCvt_cases h).elim (fun ⟨_, _, _, _, ht⟩ => ht ▸ answeredLegally_ok _ _) error

/-- The same for every accepted word, legal or not (R65). -/
theorem runWord_answersLegally (h : s.runWord word = .next t) : AnsweredLegally t := by
  unfold State.runWord at h
  split at h
  · exact exec_answersLegally h
  · cases h
    exact (errorAnswer (by decide)).answeredLegally

/-- Settles O45: the codes are those of the definition, and the response an accepted word leaves is legal. -/
theorem statusCodesAreTheTable : Obligations.StatusCodesAreTheTable := by
  refine ⟨rfl, rfl, rfl, rfl, rfl, rfl, fun s t word rest hhost hready h => ?_⟩
  rw [step_command_ready hhost hready] at h
  obtain ⟨a, ha, hlegal⟩ := runWord_answersLegally h
  exact ⟨a, ha, a.status.code_toNat_le,
    fun hcode => toNat_eq_zero_iff.mpr (Response.data_eq_zero_of_code_ne_zero hlegal hcode)⟩

/-! ### The table of errors -/

/-- The result is what the table's entry says of a command run in `s` (R172, R174): an error leaves no trace but the
response, and without one the command, if it completes, is answered OK. -/
def AnsweredAs (s : State) : Option Status → Result → Prop
  | some e, x => x = .next (s.answer e 0)
  | none, x => ∀ t, x = .next t → ∃ n, t.answer? = some (.ok, n)

namespace AnsweredAs

variable {e e' : Option Status} {x y : Result} {r : RegNum}

theorem raise (s : State) (e : Status) : AnsweredAs s (some e) (s.raise e) := rfl

theorem respond (u : State) (d : BitVec u.cfg.accw) : AnsweredAs s none (u.respond d) := by
  rintro _ ⟨⟩
  exact ⟨_, rfl⟩

theorem refused (f : Refusal) : AnsweredAs s none (.refused f) := nofun

/-- A check of the table and the command's own check that are the same condition. -/
theorem ite {p q : Prop} [Decidable p] [Decidable q] (hpq : p ↔ q) (hx : AnsweredAs s e x) (hy : AnsweredAs s e' y) :
    AnsweredAs s (if p then e else e') (if q then x else y) := by
  rw [if_congr hpq rfl rfl]
  split
  · exact hx
  · exact hy

/-- A command that the table gives no error, whichever way its own check goes. -/
theorem ite_none {q : Prop} [Decidable q] (hx : AnsweredAs s none x) (hy : AnsweredAs s none y) :
    AnsweredAs s none (if q then x else y) := by
  split
  · exact hx
  · exact hy

/-- The register check passes on a legal command (R65 (c), R173). -/
theorem ifLegal {rs : List RegNum} (hrs : rs.all (RegNum.legal s.cfg.nv) = true) (hx : AnsweredAs s e x) :
    AnsweredAs s e (s.ifLegal rs x) := by
  rwa [State.ifLegal_of hrs]

/-- The validity check of R172 on a register the machine has. -/
theorem withValue (hr : r.toNat < s.cfg.nv) {k : PackedDecimal s.cfg.w → Result}
    (hk : ∀ v, s.value? r = some v → AnsweredAs s e (k v)) :
    AnsweredAs s (if s.valid r then e else some .errUnalloc) (s.withValue r k) := by
  split
  · next hvalid =>
    obtain ⟨v, hv⟩ := State.exists_of_valid hvalid
    rw [State.withValue_of k ((State.value?_eq_some_iff r v).mp hv)]
    exact hk v hv
  · next hinvalid =>
    rw [State.withValue_none k (State.reg?_of_not_valid hr (Bool.eq_false_of_not_eq_true hinvalid))]
    exact raise s .errUnalloc

/-- The same for a command on digits: in a legal state the record of a valid register is coherent (log entry 8). -/
theorem withDigits (hs : s.Inv) (hr : r.toNat < s.cfg.nv) {k : PackedDecimal s.cfg.w → Result}
    (hk : ∀ v, s.value? r = some v → AnsweredAs s e (k v)) :
    AnsweredAs s (if s.valid r then e else some .errUnalloc) (s.withDigits r k) :=
  withValue hr fun v hv => by
    rw [if_pos (hs.coherent ((State.value?_eq_some_iff r v).mp hv))]
    exact hk v hv

/-- The range check of GETD and SETD (R81, R172). -/
theorem ifAddressable {v : PackedDecimal s.cfg.w} (hv : s.value? r = some v) (idx : Index) (hx : AnsweredAs s none x) :
    AnsweredAs s (if (s.wordCount? r).getD 0 * s.cfg.dpw ≤ idx.toNat then some .errRange else none)
      (if v.addressable idx.toNat then x else s.raise .errRange) := by
  obtain ⟨-, -, hwc⟩ := State.counts_of_value? hv
  rw [hwc, ← ite_not (p := v.addressable idx.toNat = true)]
  exact ite (not_lt.symm.trans (not_congr PackedDecimal.addressable_iff.symm)) (raise s .errRange) hx

end AnsweredAs

open AnsweredAs in
/-- A legal command on a legal state is answered as the table says: each of its checks is one of the table, in the order
of R173. -/
theorem exec_answeredAs (hs : s.Inv) {i : Instr} (hi : i.wf s.cfg.nv = true) :
    AnsweredAs s (commandError s i) (exec i s) := by
  have hlt : ∀ r ∈ i.registers, r.toNat < s.cfg.nv := Instr.wf_iff.mp hi
  cases i with
  | alloc rd dc =>
    exact ifLegal hi (ite toNat_eq_zero_iff (raise s .errInvalidArg)
      (ite Iff.rfl (raise s .errCapacity) (respond _ 0)))
  | free rd => exact ifLegal hi (withValue (hlt rd (.head _)) fun _ _ => respond _ 0)
  | copy rd rs =>
    exact ifLegal hi (withValue (hlt rs (.tail _ (.head _))) fun _ _ => ite_none (respond _ 0) (respond _ 0))
  | setd rd idx val =>
    exact ifLegal hi (withDigits hs (hlt rd (.head _)) fun _ hv => ifAddressable hv idx (respond _ 0))
  | getd rd idx => exact ifLegal hi (withDigits hs (hlt rd (.head _)) fun _ hv => ifAddressable hv idx (respond _ _))
  | sign rd => exact ifLegal hi (withDigits hs (hlt rd (.head _)) fun _ _ => respond _ _)
  | add rd rs =>
    rw [commandError, ite_and]
    refine ifLegal hi (withDigits hs (hlt rd (.head _)) fun _ _ =>
      withDigits hs (hlt rs (.tail _ (.head _))) fun _ _ => ?_)
    split
    · exact respond _ 0
    · exact refused _
  | cvt rd => exact ifLegal hi (withDigits hs (hlt rd (.head _)) fun _ _ => ite_none (refused _) (respond _ _))

/-- Settles O28: a legal word runs its command, to which `exec_answeredAs` applies once the host's action is done. -/
theorem errorsAreExactlyTheTable : Obligations.ErrorsAreExactlyTheTable := by
  intro s word rest hs hhost hready
  obtain ⟨hillegal, -⟩ := illegalWordsAreAnsweredIllegal s word rest hhost hready
  refine ⟨hillegal, fun i _ hdecode => ?_⟩
  obtain ⟨-, hwf⟩ := fields_of_decode hdecode
  have hanswer : AnsweredAs (s.hostDone rest) (commandError s i) (step s) :=
    stepRunsDecodedCommand s word rest i hhost hready hdecode ▸ exec_answeredAs (hs.hostDone rest) hwf
  refine ⟨fun e he => ?_, fun hnone => ?_⟩
  · rwa [he] at hanswer
  · rwa [hnone] at hanswer

end Sys2Proof.Machine
end

section
/-! PROOFS. The reset input (spec/70_reset_and_hazards.md R190): it leaves no register valid, and where none is valid
every command but ALLOC lacks the value that it needs (R191). -/

namespace Sys2Proof.Machine

variable {s : State}

/-! ### The reset input -/

theorem State.valid_resetInput (s : State) (r : RegNum) : s.resetInput.valid r = false := by
  unfold State.valid State.value? State.reg?
  rw [State.resetInput_regs, Vector.getElem?_replicate]
  split <;> rfl

theorem step_reset {rest : List HostAction} (hhost : s.host = .reset :: rest) :
    step s = .next (s.hostDone rest).resetInput := by
  simp [step, hhost]

/-- Settles O32: the step is the reset input, which touches neither the parameters nor the responses taken. -/
theorem resetInputInvalidatesEverything : Obligations.ResetInputInvalidatesEverything := fun s rest hhost =>
  ⟨_, step_reset hhost, (s.hostDone rest).valid_resetInput, rfl, rfl, rfl, rfl⟩

/-! ### Commands where no register is valid -/

theorem State.answer?_answer_zero (s : State) (e : Status) : (s.answer e 0).answer? = some (e, 0) := by
  simp [State.answer?]

/-- Every command but ALLOC asks first for the value of a register that it names, COPY for its source's (R172, R173). -/
theorem exec_unalloc_of_all_invalid (hs : ∀ r, s.valid r = false) {i : Instr} (hi : i.wf s.cfg.nv = true)
    (hne : ∀ rd dc, i ≠ .alloc rd dc) : exec i s = .next (s.answer .errUnalloc 0) := by
  have hlt : ∀ r ∈ i.registers, r.toNat < s.cfg.nv := Instr.wf_iff.mp hi
  cases i with
  | alloc rd dc => exact absurd rfl (hne rd dc)
  | free rd => exact valueCommand_unalloc _ hlt (.head _) (hs rd)
  | copy rd rs => exact valueCommand_unalloc _ hlt (.tail _ (.head _)) (hs rs)
  | setd rd idx val => exact valueCommand_unalloc _ hlt (.head _) (hs rd)
  | getd rd idx => exact valueCommand_unalloc _ hlt (.head _) (hs rd)
  | sign rd => exact valueCommand_unalloc _ hlt (.head _) (hs rd)
  | add rd rs => exact valueCommand_unalloc _ hlt (.head _) (hs rd)
  | cvt rd => exact valueCommand_unalloc _ hlt (.head _) (hs rd)

/-- Settles O33: the channel is free after the reset input, so the word runs where no register is valid. -/
theorem afterResetCommandsNeedAlloc : Obligations.AfterResetCommandsNeedAlloc := by
  intro s word rest u
  have hinvalid : ∀ r, (u.hostDone rest).valid r = false := s.valid_resetInput
  have hstep : step u = (u.hostDone rest).runWord word := step_command_ready rfl rfl
  obtain ⟨t, ht, hanswer⟩ := answered_runWord_of_all_invalid hinvalid word
  obtain ⟨-, hrest, -⟩ := runWord_answers ht
  refine ⟨t, hstep.trans ht, hrest, hanswer, fun i hdecode hne => ?_⟩
  obtain ⟨-, hwf⟩ := fields_of_decode hdecode
  have hunalloc : (u.hostDone rest).runWord word = .next ((u.hostDone rest).answer .errUnalloc 0) :=
    (runWord_of_decode (s := u.hostDone rest) hdecode).trans (exec_unalloc_of_all_invalid hinvalid hwf hne)
  obtain rfl := Host.Outcome.next.inj (ht.symm.trans hunalloc)
  exact State.answer?_answer_zero _ _

end Sys2Proof.Machine
end
